-- ==== Sys2Proof/Word.lean ====
section
/-! DEFINITION. The machine's one word type: the byte. Every source transaction, every output cell and every
header is made of bytes (spec/20_memory.md R53, spec/10_state.md R27). -/

namespace Sys2Proof

/-- A byte; bit 7 is the most significant, bit 0 the least significant (spec/00_scope.md R11). -/
abbrev Byte := BitVec 8

end Sys2Proof
end

