-- ==== Sys2Proof/Config.lean ====
section
/-! DEFINITION. What is fixed for this hardware (spec/00_scope.md R5 to R7), the values the model names for the
OPEN parameters in `State.reset` (log entries 1 to 4), and the one free value (log entry 10). -/

namespace Sys2Proof.Config

/-- `OUT_MAX`: the largest value of `out_len` (spec/00_scope.md R5). -/
def outMax : Nat := 65535

/-- `LEN_MAX_SHORT`: the largest length of a 1-byte header (spec/00_scope.md R6). -/
def lenMaxShort : Nat := 32

/-- `LEN_MAX_EXT`: the largest length of a 2-byte header (spec/00_scope.md R6). -/
def lenMaxExt : Nat := 1024

/-- The source address width that `State.reset` carries. DESIGN CHOICE, unsafe (log entry 1): the width is an OPEN
parameter (spec/00_scope.md R8); no statement rests on this value. -/
def resetAddressWidth : Nat := 32

/-- What `current_address()` answers in `State.reset`. DESIGN CHOICE, unsafe (log entry 3): an OPEN input
(spec/00_scope.md R10). -/
def resetCursor : Nat := 0

/-- `pc` in `State.reset`. DESIGN CHOICE, unsafe (log entry 4): spec/10_state.md R39 leaves it unspecified. -/
def resetPc : Nat := 0

/-- FREE VALUE (log entry 10), argument `AW`: what the AW-bit register `SRC_ADDR` reads while `pc` is one past the
top of the source space. spec/10_state.md R30 gives the register AW bits, spec/20_memory.md R57 lets `pc` hold
2^AW, and no rule says what the register then shows. -/
opaque srcAddrPastTop : Nat → Nat

end Sys2Proof.Config
end

