-- ==== Sys2Proof/Syntax.lean ====
section
/-! DEFINITION. The instruction set: one constructor per row of spec/opcode_table.json, in the table's order.
An instruction is what the header says (spec/30_encoding.md R81, R82): which command, which form, which length. The
payload that follows the header is read by the command's meaning, after the checks that come before it
(spec/40_interpreter_and_header.md R111; log entry 9). -/

namespace Sys2Proof

/-- The commands of the decoder (spec/30_encoding.md R85, R97). `length` is the decoded length, 1 to 32 in a short
header and 1 to 1024 in an extended one (R84); a constructor ending in X is the extended form. -/
inductive Instr where
  /-- `LIT`: append `length` raw bytes (R141). -/
  | lit (length : Nat)
  /-- `RUNB`: append one byte `length` times (R142). -/
  | runb (length : Nat)
  /-- `RUNW`: append a pair of bytes `length` times (R143). -/
  | runw (length : Nat)
  /-- `RUNI`: append an incrementing run (R146). -/
  | runi (length : Nat)
  /-- `BREF`: copy forward from the output (R161). -/
  | bref (length : Nat)
  /-- `MREF`: copy forward, each byte bit-reversed (R162). -/
  | mref (length : Nat)
  /-- `RREF`: copy walking backward (R163). -/
  | rref (length : Nat)
  /-- `LIT.X`. -/
  | litX (length : Nat)
  /-- `RUNB.X`. -/
  | runbX (length : Nat)
  /-- `RUNW.X`. -/
  | runwX (length : Nat)
  /-- `RUNI.X`. -/
  | runiX (length : Nat)
  /-- `BREF.X`. -/
  | brefX (length : Nat)
  /-- `MREF.X`. -/
  | mrefX (length : Nat)
  /-- `RREF.X`. -/
  | rrefX (length : Nat)
  /-- `END`, the sentinel byte 0xFF (R89, R180). -/
  | endMark
  /-- `ILL_FC`: first byte 0xFC, command code 7 (R90, R114); the second byte is read and ignored. -/
  | illFC (h1 : Byte)
  /-- `ILL_FD`: first byte 0xFD. -/
  | illFD (h1 : Byte)
  /-- `ILL_FE`: first byte 0xFE. -/
  | illFE (h1 : Byte)
deriving DecidableEq, Repr

end Sys2Proof
end

