-- ==== Sys2Proof/Machine/State.lean ====
section
/-! DEFINITION. The state of the decoder (spec/10_state.md), the reasons a step can stop, and the state after reset.

Plain data. `out` is the output buffer as the list of the cells that hold a value: its length IS the register
`out_len` (R24, R27, U1; log entry 6). `aw`, `src` and `srcCursor` are the machine's OPEN parameters
(spec/00_scope.md R8 to R10), carried in the state so that every statement over states is a statement over every
value of them. -/

namespace Sys2Proof.Machine

/-- The register `state` (R21). -/
inductive DecoderState where
  /-- Code 0: after reset, no decode requested. -/
  | idle
  /-- Code 1: a decode is in progress. -/
  | reading
  /-- Code 2: the `End` sentinel was read; the output buffer is the result. -/
  | done
  /-- Code 3: a decode error occurred; there is no result. -/
  | failed
deriving DecidableEq, Repr

/-- The register `err` (R25), with the error kinds of spec/60_exceptions.md R200. -/
inductive ErrKind where
  /-- Code 0: no error. -/
  | none
  /-- Code 1: command code 7 (R201). -/
  | unknownCommand
  /-- Code 2: the output would exceed 65 535 bytes (R202). -/
  | outputOverflow
  /-- Code 3: a back-reference to bytes not yet produced (R203). -/
  | backReferenceOutOfRange
  /-- Code 4: the source is exhausted before a header or payload completes (R204). -/
  | truncatedInput
deriving DecidableEq, Repr

/-- The decoder and the byte source in front of it. -/
structure State where
  /-- `AW`, the width of a source address in bits (spec/00_scope.md R8). No step changes it. -/
  aw : Nat
  /-- `Src`, the content of the byte source: the bytes that exist, by rising address; an address that is not listed
  is exhausted (spec/00_scope.md R9). No step changes it. -/
  src : List Host.Cell
  /-- `src_cursor`: what the source's `current_address()` query answers at this moment (spec/00_scope.md R10). -/
  srcCursor : Nat
  /-- The register `state` (R21). -/
  state : DecoderState
  /-- The register `pc` (R22), 0 to 2^AW; 2^AW is "one past the top" (spec/20_memory.md R57). -/
  pc : Nat
  /-- The register `err` (R25). -/
  err : ErrKind
  /-- The output buffer `out[0 .. out_len - 1]` (R27). -/
  out : List Byte
  /-- The MODEL's own record (log entry 7): the addresses of the source read transactions issued and answered since the
  last accepted start, oldest first (spec/20_memory.md R62, R63); one that is still unanswered is not in it (log
  entry 25). No meaning reads it. -/
  reads : List Nat
deriving DecidableEq, Repr

/-- The register `out_len` (R24): the number of bytes appended in the current decode. -/
abbrev State.outLen (s : State) : Nat := s.out.length

/-- Why a step stops. The decode errors of the spec are no faults of the model: failure entry is a next state
(spec/60_exceptions.md R206). -/
inductive Fault where
  /-- Raised by `step` alone, in `Idle`, `Done` and `Failed`, where "the decoder has no step and only the host can
  act" (spec/40_interpreter_and_header.md R110). Safe: the hardware makes no step there either (log entry 8). -/
  | noStep
deriving DecidableEq, Repr

/-- What the model declines to give a meaning. -/
inductive Refusal where
  /-- Reserved for an arm of `exec` without a meaning; no arm uses it. Safe. -/
  | notModelled (mnemonic : String)
  /-- Raised by host and platform moves whose address does not fit in AW bits: no such value can be written
  (spec/10_state.md R30). Safe (log entry 13). -/
  | addressTooWide
  /-- Raised by the platform move `place` during a run: "the model has no move for it"
  (spec/70_reset_and_hazards.md R237, U3). Safe (log entry 14). -/
  | sourceChangedDuringRun
  /-- Raised by the platform move `place` for a content that is no partial function on the source space
  (spec/00_scope.md R9). Safe (log entry 14). -/
  | notASource
  /-- Raised by the event `readPending` outside `Reading`, where no source read is outstanding
  (spec/20_memory.md R62). Safe (log entry 16). -/
  | noReadOutstanding
deriving DecidableEq, Repr

/-- The machine right after reset (spec/10_state.md R39) for every choice of what the spec leaves OPEN: the address
width, the source content, the cursor, and the unspecified `pc`. -/
def State.resetWith (aw : Nat) (src : List Host.Cell) (srcCursor pc : Nat) : State :=
  { aw := aw, src := src, srcCursor := srcCursor, state := .idle, pc := pc, err := .none, out := [], reads := [] }

/-- The machine right after reset with the values the log names for the OPEN choices (log entries 1 to 4). -/
def State.reset : State :=
  State.resetWith Config.resetAddressWidth [] Config.resetCursor Config.resetPc

end Sys2Proof.Machine
end

