-- ==== Sys2Proof/Machine/Ops.lean ====
section
/-! DEFINITION. The operations every meaning is built from: the source space and its byte transactions, the output
space, failure entry (taking an exception), completion of a command. Sources: spec/20_memory.md,
spec/60_exceptions.md R206, spec/40_interpreter_and_header.md R111, R115, R117. -/

namespace Sys2Proof.Machine

/-- The outcome of a step of this machine. -/
abbrev StepOutcome := Host.Outcome State Fault Refusal

/-! ## The source space (spec/10_state.md R28, spec/00_scope.md R9) -/

/-- The canonical form of a source content: addresses strictly rising and inside the source space. No byte is listed
that an unlisted address reads as, since an unlisted address holds no byte. -/
abbrev Memory.wf (aw : Nat) (src : List Host.Cell) : Prop :=
  src.Pairwise (fun c d => c.1 < d.1) ∧ ∀ c ∈ src, c.1 < 2 ^ aw

/-- The byte listed at an address; none is `exhausted` (R9). -/
def Memory.lookup : List Host.Cell → Nat → Option Byte
  | [], _ => none
  | c :: cs, a => bif Nat.beq c.1 a then some c.2 else Memory.lookup cs a

/-- The cells of a run of bytes laid out from an address upward. -/
def Memory.cellsFrom : Nat → List Byte → List Host.Cell
  | _, [] => []
  | a, b :: bs => (a, b) :: Memory.cellsFrom (a + 1) bs

/-- The content with a run of bytes laid over it from an address upward. Only the platform writes the source space,
never the decoder (spec/20_memory.md R56). -/
def Memory.overlay (src : List Host.Cell) (base : Nat) (bytes : List Byte) : List Host.Cell :=
  src.filter (fun c => c.1 < base) ++ Memory.cellsFrom base bytes
    ++ src.filter (fun c => base + bytes.length ≤ c.1)

/-- `Src(a)` (spec/20_memory.md R55, R57): a byte, or none where the source is exhausted; the source space ends at
2^AW - 1 and addresses do not wrap. -/
def State.srcByte (s : State) (a : Nat) : Option Byte :=
  if a < 2 ^ s.aw then Memory.lookup s.src a else none

/-- Record one source read transaction. -/
def State.noteRead (s : State) (a : Nat) : State := { s with reads := s.reads ++ [a] }

/-- One byte transaction at an address (R53): the answer, and the state with the transaction recorded. At or beyond
2^AW no transaction is issued (R57). -/
def State.transact (s : State) (a : Nat) : State × Option Byte :=
  if a < 2 ^ s.aw then (s.noteRead a, Memory.lookup s.src a) else (s, none)

/-! ## The output space (spec/10_state.md R27, R29) -/

/-- `out[i]`: the byte in cell `i`; none for a cell that holds no value. -/
def State.outByte (s : State) (i : Nat) : Option Byte := s.out[i]?

/-- Whether a command that appends `n` bytes would exceed the output ceiling (R115). -/
def State.overflows (s : State) (n : Nat) : Bool := decide (Config.outMax < s.outLen + n)

/-! ## Taking an exception and completing a command -/

/-- Failure entry, the machine's one way of taking an exception (spec/60_exceptions.md R206): `err` gets the code, the
output is discarded, `state` becomes `Failed`; `pc` keeps the address of the failing command (R207). There is no
return from it (R208); the host's start leaves it. -/
def State.raise (e : ErrKind) (s : State) : State := { s with err := e, out := [], state := .failed }

/-- The outcome of `raise E`. -/
def raiseErr (e : ErrKind) (s : State) : StepOutcome := .next (s.raise e)

/-- `Append(v)` at the end of the buffer (R58). -/
def State.append (s : State) (v : List Byte) : State := { s with out := s.out ++ v }

/-- `pc <- target`. -/
def State.setPc (s : State) (target : Nat) : State := { s with pc := target }

/-- Completion of a data-bearing command (spec/40_interpreter_and_header.md R117): append, then `pc` past the
command. -/
def complete (v : List Byte) (pc' : Nat) (s : State) : StepOutcome := .next ((s.append v).setPc pc')

/-- The ceiling check (R115): the rest of the command runs where `n` more bytes fit. -/
def checkCeiling (n : Nat) (s : State) (rest : StepOutcome) : StepOutcome :=
  if s.overflows n then raiseErr .outputOverflow s else rest

/-! ## MemRead (spec/20_memory.md R55) -/

/-- `MemRead(a, 1)`: the byte goes to the rest of the command; an exhausted source raises `TruncatedInput`. -/
def readU8 (s : State) (a : Nat) (rest : Byte → State → StepOutcome) : StepOutcome :=
  match s.transact a with
  | (s', some b) => rest b s'
  | (s', none) => raiseErr .truncatedInput s'

/-- `MemRead(a, 2)`: two transactions, the lower address first. -/
def readPair (s : State) (a : Nat) (rest : Byte → Byte → State → StepOutcome) : StepOutcome :=
  readU8 s a fun b0 s => readU8 s (a + 1) fun b1 s => rest b0 b1 s

/-- `MemRead(a, n)`: `n` transactions at ascending addresses. -/
def readBytes (s : State) (a : Nat) : Nat → (List Byte → State → StepOutcome) → StepOutcome
  | 0, rest => rest [] s
  | n + 1, rest => readU8 s a fun b s => readBytes s (a + 1) n fun v s => rest (b :: v) s

end Sys2Proof.Machine
end

