-- ==== Sys2Proof/Machine/Operands.lean ====
section
/-! DEFINITION. Operand forms: the sizes of header and payload (spec/30_encoding.md R86, R88), the big-endian offset
(R87), the bit-reversal unit (spec/41_bit_reversal.md), the runs and the ranges of the output buffer. -/

namespace Sys2Proof

open Machine

/-- `be16(b0, b1)`: the byte at the lower address is the high one (spec/20_memory.md R50). -/
def be16 (b0 b1 : Byte) : Nat := b0.toNat * 256 + b1.toNat

/-- `rev8` (spec/41_bit_reversal.md R130): eight crossed wires, input bit `i` drives output bit `7 - i`. -/
def rev8 (b : Byte) : Byte :=
  b.extractLsb' 0 1 ++ b.extractLsb' 1 1 ++ b.extractLsb' 2 1 ++ b.extractLsb' 3 1
    ++ b.extractLsb' 4 1 ++ b.extractLsb' 5 1 ++ b.extractLsb' 6 1 ++ b.extractLsb' 7 1

/-- `[v] * length` (R142). -/
def byteRun (v : Byte) (length : Nat) : List Byte := List.replicate length v

/-- `[v0, v1] * length` (R143): the pair in source order. -/
def pairRun (v0 v1 : Byte) (length : Nat) : List Byte := (List.replicate length [v0, v1]).flatten

/-- `[(s + i) mod 256 for i in 0 .. length-1]` (R146). -/
def incrementRun (start : Byte) (length : Nat) : List Byte :=
  (List.range length).map fun i => BitVec.ofNat 8 ((start.toNat + i) % 256)

/-- `[out[off + i] for i in 0 .. length-1]` (R161). -/
def forwardRange (s : State) (off length : Nat) : List Byte :=
  (List.range length).filterMap fun i => s.outByte (off + i)

/-- `[out[off - i] for i in 0 .. length-1]` (R163). -/
def backwardRange (s : State) (off length : Nat) : List Byte :=
  (List.range length).filterMap fun i => s.outByte (off - i)

/-- The range check of `BREF` and `MREF`: every byte named was produced before (R161). -/
def forwardInRange (s : State) (off length : Nat) : Bool := decide (off + length ≤ s.outLen)

/-- The two range checks of `RREF` (R163): the first byte was produced before, and the walk stays at or above
index 0; the second is the spec's `length > off + 1` in unsigned form. -/
def backwardInRange (s : State) (off length : Nat) : Bool := decide (off < s.outLen ∧ length ≤ off + 1)

/-- Header bytes of a command (R80). -/
def Instr.headerSize (i : Instr) : Nat :=
  match i with
  | .lit _ | .runb _ | .runw _ | .runi _ | .bref _ | .mref _ | .rref _ | .endMark => 1
  | .litX _ | .runbX _ | .runwX _ | .runiX _ | .brefX _ | .mrefX _ | .rrefX _ => 2
  | .illFC _ | .illFD _ | .illFE _ => 2

/-- Payload bytes of a command (R86); an illegal header has none. -/
def Instr.payloadSize (i : Instr) : Nat :=
  match i with
  | .lit n | .litX n => n
  | .runb _ | .runbX _ | .runi _ | .runiX _ => 1
  | .runw _ | .runwX _ | .bref _ | .brefX _ | .mref _ | .mrefX _ | .rref _ | .rrefX _ => 2
  | .endMark | .illFC _ | .illFD _ | .illFE _ => 0

/-- Total size of a command in bytes: what a completing command adds to `pc` (R88, spec/10_state.md R23). -/
def Instr.totalSize (i : Instr) : Nat := i.headerSize + i.payloadSize

/-- `n`: the bytes a command would append, `2 * length` for `RUNW`, `length` for the other data-bearing commands
(spec/40_interpreter_and_header.md R115). -/
def Instr.appendCount (i : Instr) : Nat :=
  match i with
  | .lit n | .litX n | .runb n | .runbX n | .runi n | .runiX n => n
  | .runw n | .runwX n => 2 * n
  | .bref n | .brefX n | .mref n | .mrefX n | .rref n | .rrefX n => n
  | .endMark | .illFC _ | .illFD _ | .illFE _ => 0

/-- The data-bearing commands: all but `END` and the illegal rows (spec/44_end_and_host_control.md R187). -/
def Instr.dataBearing (i : Instr) : Bool :=
  match i with
  | .lit _ | .runb _ | .runw _ | .runi _ | .bref _ | .mref _ | .rref _ => true
  | .litX _ | .runbX _ | .runwX _ | .runiX _ | .brefX _ | .mrefX _ | .rrefX _ => true
  | .endMark | .illFC _ | .illFD _ | .illFE _ => false

/-- The three illegal rows (R90). -/
def Instr.illegal (i : Instr) : Bool :=
  match i with
  | .illFC _ | .illFD _ | .illFE _ => true
  | .lit _ | .runb _ | .runw _ | .runi _ | .bref _ | .mref _ | .rref _ => false
  | .litX _ | .runbX _ | .runwX _ | .runiX _ | .brefX _ | .mrefX _ | .rrefX _ | .endMark => false

/-- The back-reference commands (spec/43_back_references.md). -/
def Instr.backReference (i : Instr) : Bool :=
  match i with
  | .bref _ | .mref _ | .rref _ | .brefX _ | .mrefX _ | .rrefX _ => true
  | .lit _ | .runb _ | .runw _ | .runi _ | .litX _ | .runbX _ | .runwX _ | .runiX _ => false
  | .endMark | .illFC _ | .illFD _ | .illFE _ => false

end Sys2Proof
end

