-- ==== Sys2Proof/Machine/BackRef.lean ====
section
/-! DEFINITION. The commands that replay bytes of the output buffer (spec/43_back_references.md). The range check
stands after the two offset bytes are read and before any output byte is read or appended (R160). -/

namespace Sys2Proof.Machine

/-- `BREF` (R161): copy `length` bytes forward from `out[off]`. -/
def backRef (header length : Nat) (s : State) : StepOutcome :=
  checkCeiling length s <|
    readPair s (s.pc + header) fun p0 p1 s' =>
      if forwardInRange s' (be16 p0 p1) length then
        complete (forwardRange s' (be16 p0 p1) length) (s.pc + header + 2) s'
      else raiseErr .backReferenceOutOfRange s'

/-- `MREF` (R162): the same, every byte copied through `rev8`. -/
def mirrorBackRef (header length : Nat) (s : State) : StepOutcome :=
  checkCeiling length s <|
    readPair s (s.pc + header) fun p0 p1 s' =>
      if forwardInRange s' (be16 p0 p1) length then
        complete ((forwardRange s' (be16 p0 p1) length).map rev8) (s.pc + header + 2) s'
      else raiseErr .backReferenceOutOfRange s'

/-- `RREF` (R163): copy `length` bytes walking backward from `out[off]`. -/
def reverseBackRef (header length : Nat) (s : State) : StepOutcome :=
  checkCeiling length s <|
    readPair s (s.pc + header) fun p0 p1 s' =>
      if backwardInRange s' (be16 p0 p1) length then
        complete (backwardRange s' (be16 p0 p1) length) (s.pc + header + 2) s'
      else raiseErr .backReferenceOutOfRange s'

/-- `BREF`. -/
def execBref (length : Nat) (s : State) : StepOutcome := backRef 1 length s

/-- `MREF`. -/
def execMref (length : Nat) (s : State) : StepOutcome := mirrorBackRef 1 length s

/-- `RREF`. -/
def execRref (length : Nat) (s : State) : StepOutcome := reverseBackRef 1 length s

/-- `BREF.X`. -/
def execBrefX (length : Nat) (s : State) : StepOutcome := backRef 2 length s

/-- `MREF.X`. -/
def execMrefX (length : Nat) (s : State) : StepOutcome := mirrorBackRef 2 length s

/-- `RREF.X`. -/
def execRrefX (length : Nat) (s : State) : StepOutcome := reverseBackRef 2 length s

end Sys2Proof.Machine
end

