-- ==== Sys2Proof/Machine/EndMark.lean ====
section
/-! DEFINITION. `END` (spec/44_end_and_host_control.md R180) and the illegal headers
(spec/40_interpreter_and_header.md R114, spec/60_exceptions.md R201). -/

namespace Sys2Proof.Machine

/-- `END` (R180): `pc` past the sentinel byte, `state` becomes `Done`; the accumulated output is the result. No
ceiling check is made. -/
def State.finish (s : State) : State := { s with pc := s.pc + 1, state := .done }

/-- `END`. -/
def execEnd (s : State) : StepOutcome := .next s.finish

/-- `ILL_FC`: both header bytes have been read; the second is ignored; `UnknownCommand` is raised with no ceiling
check and no payload read (R114). -/
def execIllFC (_h1 : Byte) (s : State) : StepOutcome := raiseErr .unknownCommand s

/-- `ILL_FD`: as `ILL_FC`. -/
def execIllFD (_h1 : Byte) (s : State) : StepOutcome := raiseErr .unknownCommand s

/-- `ILL_FE`: as `ILL_FC`. -/
def execIllFE (_h1 : Byte) (s : State) : StepOutcome := raiseErr .unknownCommand s

end Sys2Proof.Machine
end

