-- ==== Sys2Proof/Machine/Literal.lean ====
section
/-! DEFINITION. The commands that build output from their own payload (spec/42_literal_and_runs.md). Each shared
operation takes the header size, so that the short and the extended form are one meaning (R116); each instruction
has a definition of its own over it. -/

namespace Sys2Proof.Machine

/-- `LIT` (R141): the ceiling check, `length` payload bytes, append them. -/
def literal (header length : Nat) (s : State) : StepOutcome :=
  checkCeiling length s <|
    readBytes s (s.pc + header) length fun v s' => complete v (s.pc + header + length) s'

/-- `RUNB` (R142): one payload byte, appended `length` times. -/
def runByte (header length : Nat) (s : State) : StepOutcome :=
  checkCeiling length s <|
    readU8 s (s.pc + header) fun v s' => complete (byteRun v length) (s.pc + header + 1) s'

/-- `RUNW` (R143, R144): two payload bytes, the pair appended `length` times; the ceiling counts `2 * length`. -/
def runWord (header length : Nat) (s : State) : StepOutcome :=
  checkCeiling (2 * length) s <|
    readPair s (s.pc + header) fun v0 v1 s' => complete (pairRun v0 v1 length) (s.pc + header + 2) s'

/-- `RUNI` (R146): one payload byte, the start of a run that counts up modulo 256. -/
def runIncrement (header length : Nat) (s : State) : StepOutcome :=
  checkCeiling length s <|
    readU8 s (s.pc + header) fun v s' => complete (incrementRun v length) (s.pc + header + 1) s'

/-- `LIT`. -/
def execLit (length : Nat) (s : State) : StepOutcome := literal 1 length s

/-- `RUNB`. -/
def execRunb (length : Nat) (s : State) : StepOutcome := runByte 1 length s

/-- `RUNW`. -/
def execRunw (length : Nat) (s : State) : StepOutcome := runWord 1 length s

/-- `RUNI`. -/
def execRuni (length : Nat) (s : State) : StepOutcome := runIncrement 1 length s

/-- `LIT.X`. -/
def execLitX (length : Nat) (s : State) : StepOutcome := literal 2 length s

/-- `RUNB.X`. -/
def execRunbX (length : Nat) (s : State) : StepOutcome := runByte 2 length s

/-- `RUNW.X`. -/
def execRunwX (length : Nat) (s : State) : StepOutcome := runWord 2 length s

/-- `RUNI.X`. -/
def execRuniX (length : Nat) (s : State) : StepOutcome := runIncrement 2 length s

end Sys2Proof.Machine
end

