-- ==== Sys2Proof/Machine/Dispatch.lean ====
section
/-! DEFINITION. One arm per instruction (spec/40_interpreter_and_header.md R111 step (6), R116). -/

namespace Sys2Proof.Machine

def exec (i : Instr) (s : State) : Host.Outcome State Fault Refusal :=
  match i with
  | .lit length => Sys2Proof.Machine.execLit length s
  | .runb length => Sys2Proof.Machine.execRunb length s
  | .runw length => Sys2Proof.Machine.execRunw length s
  | .runi length => Sys2Proof.Machine.execRuni length s
  | .bref length => Sys2Proof.Machine.execBref length s
  | .mref length => Sys2Proof.Machine.execMref length s
  | .rref length => Sys2Proof.Machine.execRref length s
  | .litX length => Sys2Proof.Machine.execLitX length s
  | .runbX length => Sys2Proof.Machine.execRunbX length s
  | .runwX length => Sys2Proof.Machine.execRunwX length s
  | .runiX length => Sys2Proof.Machine.execRuniX length s
  | .brefX length => Sys2Proof.Machine.execBrefX length s
  | .mrefX length => Sys2Proof.Machine.execMrefX length s
  | .rrefX length => Sys2Proof.Machine.execRrefX length s
  | .endMark => Sys2Proof.Machine.execEnd s
  | .illFC h1 => Sys2Proof.Machine.execIllFC h1 s
  | .illFD h1 => Sys2Proof.Machine.execIllFD h1 s
  | .illFE h1 => Sys2Proof.Machine.execIllFE h1 s

end Sys2Proof.Machine
end

