-- ==== Sys2Proof/WellFormed.lean ====
section
/-! DEFINITION. Which instructions an encoding can carry: the length ranges of spec/30_encoding.md R84. -/

namespace Sys2Proof

/-- A length a short header can express: 1 to 32 (spec/00_scope.md R6). -/
abbrev ShortLength (length : Nat) : Prop := 1 ≤ length ∧ length ≤ Config.lenMaxShort

/-- A length an extended header can express: 1 to 1024 (spec/00_scope.md R6). -/
abbrev ExtLength (length : Nat) : Prop := 1 ≤ length ∧ length ≤ Config.lenMaxExt

/-- The instruction has an encoding: "A `length` of 0 and a `length` above 1024 cannot be encoded"
(spec/30_encoding.md R84). -/
def Instr.wellFormed (i : Instr) : Bool :=
  match i with
  | .lit n => decide (ShortLength n)
  | .runb n => decide (ShortLength n)
  | .runw n => decide (ShortLength n)
  | .runi n => decide (ShortLength n)
  | .bref n => decide (ShortLength n)
  | .mref n => decide (ShortLength n)
  | .rref n => decide (ShortLength n)
  | .litX n => decide (ExtLength n)
  | .runbX n => decide (ExtLength n)
  | .runwX n => decide (ExtLength n)
  | .runiX n => decide (ExtLength n)
  | .brefX n => decide (ExtLength n)
  | .mrefX n => decide (ExtLength n)
  | .rrefX n => decide (ExtLength n)
  | .endMark => true
  | .illFC _ => true
  | .illFD _ => true
  | .illFE _ => true

end Sys2Proof
end

