-- ==== Sys2Proof/Decode.lean ====
section
/-! DEFINITION. From bytes to instructions and back (spec/30_encoding.md): the first-byte test, the two header
formats, `decode`, then the encoder, the assembler's canonical header (R93), `decode_header` as the spec writes it
(R112), the opcode table as data (R97), and the host's table words. -/

namespace Sys2Proof

/-! ## Fields of a header (R81, R82, R84) -/

/-- The code field of a short header, `h0[7:5]`; the value 7 is the escape marker of an extended header. -/
def topField (h0 : Byte) : BitVec 3 := h0.extractLsb' 5 3

/-- The code field of an extended header, `h0[4:2]`. -/
def extCode (h0 : Byte) : BitVec 3 := h0.extractLsb' 2 3

/-- The length of a short header: `h0[4:0] + 1`. -/
def shortLength (h0 : Byte) : Nat := (h0.extractLsb' 0 5).toNat + 1

/-- The length of an extended header: `(h0[1:0] || h1[7:0]) + 1`. -/
def extLength (h0 h1 : Byte) : Nat := (h0.extractLsb' 0 2 ++ h1).toNat + 1

/-! ## Decoding -/

/-- What the first byte of a command says (R83): a whole 1-byte header, or that a second header byte follows. -/
inductive FirstByte where
  | whole (i : Instr)
  | extended
deriving DecidableEq, Repr

/-- The tests of R83 in their order: the sentinel before any parsing, then the escape marker, then the short
header's fields. The last arm is the field value 7, that is the escape marker (R81). -/
def classifyFirst (h0 : Byte) : FirstByte :=
  if h0 = 0xFF#8 then .whole .endMark
  else
    match (topField h0).toNat with
    | 0 => .whole (.lit (shortLength h0))
    | 1 => .whole (.runb (shortLength h0))
    | 2 => .whole (.runw (shortLength h0))
    | 3 => .whole (.runi (shortLength h0))
    | 4 => .whole (.bref (shortLength h0))
    | 5 => .whole (.mref (shortLength h0))
    | 6 => .whole (.rref (shortLength h0))
    | _ => .extended

/-- The instruction of an extended header (R82, R85, R90). Under code 7 the two low bits of `h0` name the illegal
row; their value 3 there is the sentinel 0xFF, which R83 tests first. -/
def decodeExtended (h0 h1 : Byte) : Instr :=
  match (extCode h0).toNat with
  | 0 => .litX (extLength h0 h1)
  | 1 => .runbX (extLength h0 h1)
  | 2 => .runwX (extLength h0 h1)
  | 3 => .runiX (extLength h0 h1)
  | 4 => .brefX (extLength h0 h1)
  | 5 => .mrefX (extLength h0 h1)
  | 6 => .rrefX (extLength h0 h1)
  | _ =>
    match (h0.extractLsb' 0 2).toNat with
    | 0 => .illFC h1
    | 1 => .illFD h1
    | 2 => .illFE h1
    | _ => .endMark

/-- Why a list of bytes holds no header. -/
inductive DecodeReject where
  /-- The list is empty. -/
  | noFirstByte
  /-- The first byte is the first of two and the list ends there. -/
  | noSecondByte
deriving DecidableEq, Repr

/-- The instruction at the head of a list of bytes and the bytes after its header (R80, R83). Every byte value in
first-byte position begins some row of the table (R97), so only a list that is too short is rejected. -/
def decode : List Byte → Except DecodeReject (Instr × List Byte)
  | [] => .error .noFirstByte
  | h0 :: rest =>
    match classifyFirst h0 with
    | .whole i => .ok (i, rest)
    | .extended =>
      match rest with
      | [] => .error .noSecondByte
      | h1 :: rest => .ok (decodeExtended h0 h1, rest)

/-! ## Encoding -/

/-- Format S (R81): the code in bits 7:5, length - 1 in bits 4:0. -/
def encodeShort (code : BitVec 3) (length : Nat) : List Byte :=
  [code ++ BitVec.ofNat 5 (length - 1)]

/-- Format X (R82): `0b111 || code || lenm1[9:8]` in the first byte, `lenm1[7:0]` in the second. -/
def encodeExtended (code : BitVec 3) (length : Nat) : List Byte :=
  let lenm1 : BitVec 10 := BitVec.ofNat 10 (length - 1)
  [0b111#3 ++ code ++ lenm1.extractLsb' 8 2, lenm1.extractLsb' 0 8]

/-- The header bytes of an instruction, from the table of R97. -/
def encode (i : Instr) : List Byte :=
  match i with
  | .lit n => encodeShort 0 n
  | .runb n => encodeShort 1 n
  | .runw n => encodeShort 2 n
  | .runi n => encodeShort 3 n
  | .bref n => encodeShort 4 n
  | .mref n => encodeShort 5 n
  | .rref n => encodeShort 6 n
  | .litX n => encodeExtended 0 n
  | .runbX n => encodeExtended 1 n
  | .runwX n => encodeExtended 2 n
  | .runiX n => encodeExtended 3 n
  | .brefX n => encodeExtended 4 n
  | .mrefX n => encodeExtended 5 n
  | .rrefX n => encodeExtended 6 n
  | .endMark => [0xFF#8]
  | .illFC h1 => [0xFC#8, h1]
  | .illFD h1 => [0xFD#8, h1]
  | .illFE h1 => [0xFE#8, h1]

/-- `encode_header` (R93): the canonical header of a command code and a length, short where the length fits; it
fails where the code is 7 or the length is not 1 to 1024. -/
def encodeHeader (code : BitVec 3) (length : Nat) : Option (List Byte) :=
  if code = 7#3 then none
  else if ¬ ExtLength length then none
  else if length - 1 ≤ 31 then some (encodeShort code length)
  else some (encodeExtended code length)

/-! ## The header parser as the spec writes it (R112) -/

/-- What `decode_header` returns: the sentinel, or code, length and header size. -/
inductive Header where
  | endMark
  | command (code length size : Nat)
deriving DecidableEq, Repr

/-- `decode_header` (spec/40_interpreter_and_header.md R112) in its own arithmetic; `readH1` is asked for the second
byte on the extended path only, and answers nothing where the source is exhausted. -/
def decodeHeader (h0 : Byte) (readH1 : Unit → Option Byte) : Option Header :=
  if h0 = 0xFF#8 then some .endMark
  else if h0.toNat &&& 0xE0 = 0xE0 then
    (readH1 ()).map fun h1 =>
      .command ((h0.toNat >>> 2) &&& 7) ((((h0.toNat &&& 3) <<< 8) ||| h1.toNat) + 1) 2
  else some (.command (h0.toNat >>> 5) ((h0.toNat &&& 31) + 1) 1)

/-- The header an instruction stands for: its command code (R85), its length and its size in bytes (R88). The ten
length bits of an illegal header are computed and not used (R114). -/
def Instr.header (i : Instr) : Header :=
  match i with
  | .lit n => .command 0 n 1
  | .runb n => .command 1 n 1
  | .runw n => .command 2 n 1
  | .runi n => .command 3 n 1
  | .bref n => .command 4 n 1
  | .mref n => .command 5 n 1
  | .rref n => .command 6 n 1
  | .litX n => .command 0 n 2
  | .runbX n => .command 1 n 2
  | .runwX n => .command 2 n 2
  | .runiX n => .command 3 n 2
  | .brefX n => .command 4 n 2
  | .mrefX n => .command 5 n 2
  | .rrefX n => .command 6 n 2
  | .endMark => .endMark
  | .illFC h1 => .command 7 (h1.toNat + 1) 2
  | .illFD h1 => .command 7 (256 + h1.toNat + 1) 2
  | .illFE h1 => .command 7 (512 + h1.toNat + 1) 2

/-! ## The opcode table as data (spec/30_encoding.md section 5) -/

/-- A row: a first byte `b` selects it when `b & mask = pattern`. -/
structure OpcodeRow where
  mnemonic : String
  pattern : Byte
  mask : Byte
deriving DecidableEq, Repr

/-- The row is selected by this first byte. -/
def OpcodeRow.selects (r : OpcodeRow) (h0 : Byte) : Bool := h0 &&& r.mask == r.pattern

/-- The eighteen rows of spec/opcode_table.json. -/
def opcodeRows : List OpcodeRow :=
  [⟨"LIT", 0x00#8, 0xE0#8⟩, ⟨"RUNB", 0x20#8, 0xE0#8⟩, ⟨"RUNW", 0x40#8, 0xE0#8⟩, ⟨"RUNI", 0x60#8, 0xE0#8⟩,
   ⟨"BREF", 0x80#8, 0xE0#8⟩, ⟨"MREF", 0xA0#8, 0xE0#8⟩, ⟨"RREF", 0xC0#8, 0xE0#8⟩]
  ++ [⟨"LIT.X", 0xE0#8, 0xFC#8⟩, ⟨"RUNB.X", 0xE4#8, 0xFC#8⟩, ⟨"RUNW.X", 0xE8#8, 0xFC#8⟩, ⟨"RUNI.X", 0xEC#8, 0xFC#8⟩,
   ⟨"BREF.X", 0xF0#8, 0xFC#8⟩, ⟨"MREF.X", 0xF4#8, 0xFC#8⟩, ⟨"RREF.X", 0xF8#8, 0xFC#8⟩]
  ++ [⟨"END", 0xFF#8, 0xFF#8⟩, ⟨"ILL_FC", 0xFC#8, 0xFF#8⟩, ⟨"ILL_FD", 0xFD#8, 0xFF#8⟩, ⟨"ILL_FE", 0xFE#8, 0xFF#8⟩]

/-- The table's name of an instruction. -/
def Instr.mnemonic (i : Instr) : String :=
  match i with
  | .lit _ => "LIT"
  | .runb _ => "RUNB"
  | .runw _ => "RUNW"
  | .runi _ => "RUNI"
  | .bref _ => "BREF"
  | .mref _ => "MREF"
  | .rref _ => "RREF"
  | .litX _ => "LIT.X"
  | .runbX _ => "RUNB.X"
  | .runwX _ => "RUNW.X"
  | .runiX _ => "RUNI.X"
  | .brefX _ => "BREF.X"
  | .mrefX _ => "MREF.X"
  | .rrefX _ => "RREF.X"
  | .endMark => "END"
  | .illFC _ => "ILL_FC"
  | .illFD _ => "ILL_FD"
  | .illFE _ => "ILL_FE"

/-! ## The host's table words -/

/-- The longest command in bytes: `LIT.X` of length 1024 (spec/42_literal_and_runs.md R141). -/
def longestCommand : Nat := 1026

/-- The bytes of a table word: byte `k` is bits `8k+7 .. 8k` of `w`, for the bytes that `nbits` covers. -/
def tableBytes (nbits w : Nat) : List Byte :=
  (List.range ((nbits + 7) / 8)).map fun k => BitVec.ofNat 8 (w >>> (8 * k))

/-- The bytes of a table word, then zeros up to the longest command. -/
def tableImage (nbits w : Nat) : List Byte :=
  tableBytes nbits w ++ List.replicate (longestCommand - (nbits + 7) / 8) 0#8

/-- The instruction the decoder reads from a table word whose later bits are zero. -/
def decodeTableWord (nbits w : Nat) : Option Instr :=
  match decode (tableImage nbits w) with
  | .ok (i, _) => some i
  | .error _ => none

end Sys2Proof
end

