-- ==== Sys2Proof/Machine/Fetch.lean ====
section
/-! DEFINITION. Fetching a command's header (spec/40_interpreter_and_header.md R111 steps (1) to (3), R113), and
laying an instruction out where the next fetch reads it. -/

namespace Sys2Proof.Machine

/-- The header at `pc`: the first byte; the second byte only where the first one says that the header is extended
(R113). An exhausted source raises `TruncatedInput`, before `UnknownCommand` can be raised (R114). -/
def fetchHeader (s : State) (run : Instr → State → StepOutcome) : StepOutcome :=
  readU8 s s.pc fun h0 s' =>
    match classifyFirst h0 with
    | .whole i => run i s'
    | .extended => readU8 s' (s.pc + 1) fun h1 s'' => run (decodeExtended h0 h1) s''

/-- The bytes laid over the source at `pc`, as far as the source space reaches, and the decoder reading there. -/
def State.loadAtPc (s : State) (bytes : List Byte) : State :=
  { s with src := Memory.overlay s.src s.pc (bytes.take (2 ^ s.aw - s.pc)), state := .reading }

end Sys2Proof.Machine
end

