-- ==== Sys2Proof/Machine/Step.lean ====
section
/-! DEFINITION. One step is one whole command (spec/40_interpreter_and_header.md R110, R111). -/

namespace Sys2Proof.Machine

/-- The step: enabled only in `Reading`; in the other states the decoder has no step (R110). -/
def step (s : State) : Host.Outcome State Fault Refusal :=
  match s.state with
  | .reading => fetchHeader s exec
  | .idle => .fault .noStep
  | .done => .fault .noStep
  | .failed => .fault .noStep

/-- The state in which the next step fetches and runs the instruction of a table word: its bytes, then zeros up to
the longest command, stand in the source at `pc`, and the decoder is `Reading` (log entry 5). -/
def State.withFetchWord (s : State) (nbits w : Nat) : State := s.loadAtPc (tableImage nbits w)

end Sys2Proof.Machine
end

