-- ==== Sys2Proof/Machine/Assembler.lean ====
section
/-! DEFINITION. The assembler of spec/30_encoding.md R95: one line of the assembler's text as a data type, and the
bytes it stands for, header and payload. A plain mnemonic is encoded canonically (R93); the suffix `.X` forces the
extended form. There are no pseudo-instructions (R96). -/

namespace Sys2Proof

/-- Which header a line asks for. -/
inductive HeaderForm where
  /-- A plain mnemonic. -/
  | canonical
  /-- The suffix `.X`. -/
  | extended
deriving DecidableEq, Repr

/-- A line (R95). -/
inductive AsmLine where
  /-- `LIT b0 b1 ...`; the length is the number of bytes listed. -/
  | lit (form : HeaderForm) (bytes : List Byte)
  /-- `RUNB L, v`. -/
  | runb (form : HeaderForm) (length : Nat) (v : Byte)
  /-- `RUNW L, v0 v1`. -/
  | runw (form : HeaderForm) (length : Nat) (v0 v1 : Byte)
  /-- `RUNI L, n`. -/
  | runi (form : HeaderForm) (length : Nat) (n : Byte)
  /-- `BREF L, off`. -/
  | bref (form : HeaderForm) (length : Nat) (off : BitVec 16)
  /-- `MREF L, off`. -/
  | mref (form : HeaderForm) (length : Nat) (off : BitVec 16)
  /-- `RREF L, off`. -/
  | rref (form : HeaderForm) (length : Nat) (off : BitVec 16)
  /-- `END`. -/
  | endMark
  /-- `.ILL h0 h1`, with `h0` in 0xFC to 0xFE. -/
  | ill (h0 h1 : Byte)
  /-- `.BYTE b ...`. -/
  | bytes (bs : List Byte)
deriving DecidableEq, Repr

/-- The header of a line. -/
def HeaderForm.header (form : HeaderForm) (code : BitVec 3) (length : Nat) : Option (List Byte) :=
  match form with
  | .canonical => encodeHeader code length
  | .extended => if code ≠ 7#3 ∧ ExtLength length then some (encodeExtended code length) else none

/-- A 16-bit offset as the source holds it: high byte first (R87). -/
def offsetBytes (off : BitVec 16) : List Byte := [off.extractLsb' 8 8, off.extractLsb' 0 8]

/-- The bytes of a line; none for a line that stands for no command. -/
def AsmLine.assemble (line : AsmLine) : Option (List Byte) :=
  match line with
  | .lit form bs => (form.header 0 bs.length).map (· ++ bs)
  | .runb form n v => (form.header 1 n).map (· ++ [v])
  | .runw form n v0 v1 => (form.header 2 n).map (· ++ [v0, v1])
  | .runi form n v => (form.header 3 n).map (· ++ [v])
  | .bref form n off => (form.header 4 n).map (· ++ offsetBytes off)
  | .mref form n off => (form.header 5 n).map (· ++ offsetBytes off)
  | .rref form n off => (form.header 6 n).map (· ++ offsetBytes off)
  | .endMark => some [0xFF#8]
  | .ill h0 h1 => if 0xFC ≤ h0.toNat ∧ h0.toNat ≤ 0xFE then some [h0, h1] else none
  | .bytes bs => some bs

/-- The bytes of a program, its lines one after the other (R80). -/
def assembleAll : List AsmLine → Option (List Byte)
  | [] => some []
  | l :: ls => l.assemble.bind fun bs => (assembleAll ls).map (bs ++ ·)

end Sys2Proof
end

