-- ==== Sys2Proof/Machine/SourcePort.lean ====
section
/-! DEFINITION. The level below the step: one source read transaction at a time (spec/20_memory.md R53, R62), with
the working latches of spec/10_state.md R38. The latches are not architectural (decision D17); between commands none
is live. `portTick` is written from the pseudocode of spec/40_interpreter_and_header.md R111 read as a sequence of
transactions, independently of the meanings that `step` dispatches to; that both compute the same is a statement
("The per-byte read trace (rules R62, R63) is the refinement obligation", D17). Log entry 20. -/

namespace Sys2Proof.Machine

/-- Which latches are live between two transactions (R38). -/
inductive Phase where
  /-- Between commands: no latch is live. -/
  | boundary
  /-- The first header byte is latched, the second is to come. -/
  | secondHeader (h0 : Byte)
  /-- The header is parsed and checked; `got` are the payload bytes read so far. -/
  | payload (i : Instr) (got : List Byte)
deriving DecidableEq, Repr

/-- The decoder with its latches. -/
structure PortState where
  machine : State
  phase : Phase
deriving DecidableEq, Repr

/-- The `source_offset` of the payload bytes: big-endian (spec/20_memory.md R50). -/
def beNumber (got : List Byte) : Nat := got.foldl (fun acc b => acc * 256 + b.toNat) 0

/-- The bytes a data-bearing command appends, given its whole payload and the buffer before it; or the error of its
range check (spec/43_back_references.md R160 to R163). -/
def produce (i : Instr) (got : List Byte) (s : State) : Except ErrKind (List Byte) :=
  match i with
  | .lit _ | .litX _ => .ok got
  | .runb n | .runbX n | .runw n | .runwX n => .ok (List.replicate n got).flatten
  | .runi n | .runiX n => .ok (got.flatMap fun v => incrementRun v n)
  | .bref n | .brefX n =>
    if beNumber got + n ≤ s.outLen then .ok (forwardRange s (beNumber got) n) else .error .backReferenceOutOfRange
  | .mref n | .mrefX n =>
    if beNumber got + n ≤ s.outLen then .ok ((forwardRange s (beNumber got) n).map rev8)
    else .error .backReferenceOutOfRange
  | .rref n | .rrefX n =>
    if beNumber got < s.outLen ∧ n ≤ beNumber got + 1 then .ok (backwardRange s (beNumber got) n)
    else .error .backReferenceOutOfRange
  | .endMark | .illFC _ | .illFD _ | .illFE _ => .ok []

/-- The command has ended: no latch is live. -/
def atBoundary (s : State) : PortState := { machine := s, phase := .boundary }

/-- What follows the header: the sentinel, the unknown-command check, the ceiling check, then the payload (R111
steps (2), (4), (5)). -/
def portAfterHeader (i : Instr) (s : State) : PortState :=
  if i = .endMark then atBoundary { s with pc := s.pc + 1, state := .done }
  else if i.illegal then atBoundary (s.raise .unknownCommand)
  else if Config.outMax < s.outLen + i.appendCount then atBoundary (s.raise .outputOverflow)
  else { machine := s, phase := .payload i [] }

/-- What follows the last payload byte: the range check, the append, the advance of `pc` (R111 step (6)). -/
def portFinish (i : Instr) (got : List Byte) (s : State) : State :=
  match produce i got s with
  | .ok v => { s with out := s.out ++ v, pc := s.pc + i.totalSize }
  | .error e => s.raise e

/-- The address of the next transaction. -/
def PortState.address (m : PortState) : Nat :=
  match m.phase with
  | .boundary => m.machine.pc
  | .secondHeader _ => m.machine.pc + 1
  | .payload i got => m.machine.pc + i.headerSize + got.length

/-- One transaction is issued and answered, and what its answer leads to; an exhausted source raises
`TruncatedInput`. In `Idle`, `Done` and `Failed` there is none. DESIGN CHOICE, unsafe (log entry 25): a transaction
enters the record `reads` together with its answer, so one that is issued and not yet answered is not in it. -/
def portTick (m : PortState) : Option PortState :=
  if m.machine.state = .reading then
    match m.machine.transact m.address with
    | (s, none) => some (atBoundary (s.raise .truncatedInput))
    | (s, some b) =>
      match m.phase with
      | .boundary =>
        match classifyFirst b with
        | .whole i => some (portAfterHeader i s)
        | .extended => some { machine := s, phase := .secondHeader b }
      | .secondHeader h0 => some (portAfterHeader (decodeExtended h0 b) s)
      | .payload i got =>
        if got.length + 1 < i.payloadSize then some { machine := s, phase := .payload i (got ++ [b]) }
        else some (atBoundary (portFinish i (got ++ [b]) s))
  else none

/-- `k` transactions. -/
def portTicks : Nat → PortState → Option PortState
  | 0, m => some m
  | k + 1, m => (portTick m).bind (portTicks k)

/-- Reset in the middle of a command (spec/70_reset_and_hazards.md R230, U14): the command is abandoned, the latches
are dead, and the transactions that were issued and answered are the only remnant; one still outstanding is forgotten
and not in the record (DESIGN CHOICE, log entry 25). `pc'` is the unspecified value of `pc`. -/
def portReset (pc' : Nat) (m : PortState) : PortState :=
  atBoundary { State.resetWith m.machine.aw m.machine.src m.machine.srcCursor pc' with reads := m.machine.reads }

end Sys2Proof.Machine
end

