-- ==== Sys2Proof/Machine/Flags.lean ====
section
/-! DEFINITION. Status. The machine has no condition codes and no command sets or tests a flag
(spec/10_state.md R26); what it has is `state` and `err`, their numeric codes (R21, R25), the register `STATUS` made
of them (R31) and three level outputs. -/

namespace Sys2Proof.Machine

/-- The 2-bit code of `state` (R21). -/
def DecoderState.code (d : DecoderState) : BitVec 2 :=
  match d with
  | .idle => 0
  | .reading => 1
  | .done => 2
  | .failed => 3

/-- The 3-bit code of `err` (R25, R200). -/
def ErrKind.code (e : ErrKind) : BitVec 3 :=
  match e with
  | .none => 0
  | .unknownCommand => 1
  | .outputOverflow => 2
  | .backReferenceOutOfRange => 3
  | .truncatedInput => 4

/-- Register 2, `STATUS` (R30, R31): `ERR` in bits 4:2, `STATE` in bits 1:0. -/
def State.statusReg (s : State) : BitVec 5 := s.err.code ++ s.state.code

/-- Register 3, `OUT_LEN` (R30, R32). -/
def State.outLenReg (s : State) : BitVec 16 := BitVec.ofNat 16 s.outLen

/-- Register 4, `SRC_ADDR` (R30, R33): reads `pc`. With `pc` one past the top of the source space the AW-bit register
shows a value the spec does not state (log entry 10). -/
def State.srcAddrReg (s : State) : Nat :=
  if s.pc < 2 ^ s.aw then s.pc else Config.srcAddrPastTop s.aw % 2 ^ s.aw

/-- The level output `busy` (R26). -/
def State.busy (s : State) : Bool := s.state == .reading

/-- The level output `done` (R26). -/
def State.done (s : State) : Bool := s.state == .done

/-- The level output `failed` (R26). -/
def State.failed (s : State) : Bool := s.state == .failed

end Sys2Proof.Machine
end

