-- ==== Sys2Proof/Machine/HostPort.lean ====
section
/-! DEFINITION. What the host can do to the decoder (spec/44_end_and_host_control.md, spec/10_state.md section 9,
spec/70_reset_and_hazards.md R230): start a decode, read the registers and the result, assert reset. -/

namespace Sys2Proof.Machine

/-- The host's registers (R30). -/
inductive HostReg where
  /-- 0, write-only: a write of `a` is `Start(a)`. -/
  | startAt
  /-- 1, write-only: a write of any value is `StartAtCursor`. -/
  | startCur
  /-- 2, read-only. -/
  | status
  /-- 3, read-only. -/
  | outLen
  /-- 4, read-only. -/
  | srcAddr
deriving DecidableEq, Repr

/-- The register's number (R30). -/
def HostReg.number (r : HostReg) : Nat :=
  match r with
  | .startAt => 0
  | .startCur => 1
  | .status => 2
  | .outLen => 3
  | .srcAddr => 4

/-- The register of a number; there is none above 4 (R30). -/
def HostReg.ofNumber : Nat → Option HostReg
  | 0 => some .startAt
  | 1 => some .startCur
  | 2 => some .status
  | 3 => some .outLen
  | 4 => some .srcAddr
  | _ => none

/-- The beginning of a decode at an address: an empty buffer, no error, `Reading` (R182). -/
def State.beginDecode (s : State) (a : Nat) : State :=
  { s with pc := a, out := [], err := .none, state := .reading, reads := [] }

/-- `Start(a)` (R182): accepted in `Idle`, `Done` and `Failed`, ignored in `Reading` (R184). -/
def hostStart (a : Nat) (s : State) : StepOutcome :=
  if 2 ^ s.aw ≤ a then .refused .addressTooWide
  else
    match s.state with
    | .reading => .next s
    | .idle => .next (s.beginDecode a)
    | .done => .next (s.beginDecode a)
    | .failed => .next (s.beginDecode a)

/-- `StartAtCursor` (R183): `Start(a)` with what `current_address()` answers at that moment. -/
def hostStartAtCursor (s : State) : StepOutcome := hostStart s.srcCursor s

/-- A host write of a register; a write of a read-only register has no effect (R30). -/
def hostWrite (r : HostReg) (v : Nat) (s : State) : StepOutcome :=
  match r with
  | .startAt => hostStart v s
  | .startCur => hostStartAtCursor s
  | .status => .next s
  | .outLen => .next s
  | .srcAddr => .next s

/-- What a host read of a register returns (R30, R185); a write-only register returns no value. -/
def hostRead (r : HostReg) (s : State) : Option Nat :=
  match r with
  | .startAt => none
  | .startCur => none
  | .status => some s.statusReg.toNat
  | .outLen => some s.outLenReg.toNat
  | .srcAddr => some s.srcAddrReg

/-- The read port `OUT_RD(i)` (R36): a byte of the result in `Done`; in every other case the read is refused and
returns no value. -/
def State.outRd (s : State) (i : BitVec 16) : Option Byte :=
  match s.state with
  | .done => s.outByte i.toNat
  | .idle => none
  | .reading => none
  | .failed => none

/-- The reset event (R230): at any time and in any state, `Idle` with nothing produced; `pc` becomes unspecified, so
its new value is an argument, any AW-bit value (U4). The parameters stay, and so does the record of the
transactions that were issued and answered (U14; an outstanding one is not in it, log entry 25). -/
def hostReset (pc' : Nat) (s : State) : StepOutcome :=
  if 2 ^ s.aw ≤ pc' then .refused .addressTooWide
  else .next { State.resetWith s.aw s.src s.srcCursor pc' with reads := s.reads }

end Sys2Proof.Machine
end

