-- ==== Sys2Proof/Machine/System.lean ====
section
/-! DEFINITION. The decoder with its environment: every move that the spec gives the decoder, the host, the byte
source or the platform, as one function of the move and the state. The decoder's own move is `step`; the order of
moves is the environment's. -/

namespace Sys2Proof.Machine

/-- The moves. -/
inductive Event where
  /-- The decoder executes one whole command (spec/40_interpreter_and_header.md R110). -/
  | decode
  /-- A source read is still unanswered: while it is pending the architectural state does not change
  (spec/20_memory.md R62 (c)); a read that is never answered is this move for ever (spec/70_reset_and_hazards.md
  R243). -/
  | readPending
  /-- The host writes a register (spec/10_state.md R30). -/
  | hostWrite (r : HostReg) (v : Nat)
  /-- The host reads a register; no side effect (spec/44_end_and_host_control.md R185). -/
  | hostRead (r : HostReg)
  /-- The host reads the result port; no side effect (spec/10_state.md R36). -/
  | outRead (i : BitVec 16)
  /-- The platform puts a content in the source space (spec/70_reset_and_hazards.md R232). -/
  | place (src : List Host.Cell)
  /-- The source's cursor moves (spec/00_scope.md R10); only `StartAtCursor` samples it. -/
  | moveCursor (a : Nat)
  /-- Reset is asserted; `pc` is the unspecified value that `pc` then has (spec/70_reset_and_hazards.md R230). -/
  | reset (pc : Nat)
deriving DecidableEq, Repr

/-- The platform places a source content: only while no decode is in progress (R237), and only a partial function
on the source space (R9). -/
def placeSource (src : List Host.Cell) (s : State) : StepOutcome :=
  match s.state with
  | .reading => .refused .sourceChangedDuringRun
  | .idle | .done | .failed => if Memory.wf s.aw src then .next { s with src := src } else .refused .notASource

/-- The source's cursor moves to an AW-bit address. -/
def setCursor (a : Nat) (s : State) : StepOutcome :=
  if 2 ^ s.aw ≤ a then .refused .addressTooWide else .next { s with srcCursor := a }

/-- A source read that is outstanding stays unanswered; outside `Reading` none is outstanding. The outstanding read is
not entered in the record `reads` (DESIGN CHOICE, log entry 25). -/
def waitForSource (s : State) : StepOutcome :=
  match s.state with
  | .reading => .next s
  | .idle | .done | .failed => .refused .noReadOutstanding

/-- What a move does. -/
def act (e : Event) (s : State) : StepOutcome :=
  match e with
  | .decode => step s
  | .readPending => waitForSource s
  | .hostWrite r v => hostWrite r v s
  | .hostRead _ => .next s
  | .outRead _ => .next s
  | .place src => placeSource src s
  | .moveCursor a => setCursor a s
  | .reset pc => hostReset pc s

/-- A sequence of moves, stopping at the first one that is no move. -/
def actAll : List Event → State → StepOutcome
  | [], s => .next s
  | e :: es, s =>
    match act e s with
    | .next s' => actAll es s'
    | .fault r => .fault r
    | .refused r => .refused r

/-- `k` steps of the decoder, ending where the run ends: a run ends at the first moment `state` is `Done` or
`Failed` (spec/44_end_and_host_control.md R186). -/
def decodeRun : Nat → State → State
  | 0, s => s
  | k + 1, s =>
    match step s with
    | .next s' => decodeRun k s'
    | .fault _ => s
    | .refused _ => s

end Sys2Proof.Machine
end

