-- ==== Sys2Proof/Safety.lean ====
section
/-! DEFINITION. The terms claims are stated in: the invariant (spec/10_state.md R40), the trace of source reads
(spec/20_memory.md R63), what a completed and a failed command leave behind, the error a step raises in the priority
of spec/60_exceptions.md R205, and the byte-by-byte copy of spec/43_back_references.md R164. -/

namespace Sys2Proof.Machine

/-! ## Invariant -/

/-- What holds between any two moves of the decoder and its environment. -/
structure State.Inv (s : State) : Prop where
  /-- `AW >= 1` (spec/92_eei_decisions.md, OPEN parameters). -/
  aw_pos : 1 ≤ s.aw
  /-- `Src` is a partial function on the source space, in canonical form (spec/00_scope.md R9). -/
  src_wf : Memory.wf s.aw s.src
  /-- `src_cursor` is an AW-bit value (spec/00_scope.md R10). -/
  cursor_lt : s.srcCursor < 2 ^ s.aw
  /-- `pc` is only ever written with a value at most 2^AW (spec/20_memory.md R57). -/
  pc_le : s.pc ≤ 2 ^ s.aw
  /-- R40 (a). -/
  outLen_le : s.outLen ≤ Config.outMax
  /-- R40 (b). -/
  err_iff : s.err = .none ↔ s.state ≠ .failed
  /-- R40 (c). -/
  failed_empty : s.state = .failed → s.outLen = 0
  /-- R40 (d). -/
  idle_empty : s.state = .idle → s.outLen = 0 ∧ s.err = .none

/-! ## Bytes of the source -/

/-- The `n` bytes from an address upward all exist. -/
def State.Present (s : State) (a n : Nat) : Prop := ∀ j < n, (s.srcByte (a + j)).isSome

/-- Going upward from `a`, the byte at `a + k` is the first one that is exhausted. -/
def State.FirstMissing (s : State) (a k : Nat) : Prop := s.Present a k ∧ s.srcByte (a + k) = none

/-- The bytes stand in the source from an address upward. -/
def State.Holds (s : State) (a : Nat) (bytes : List Byte) : Prop :=
  ∀ j < bytes.length, s.srcByte (a + j) = bytes[j]?

/-- The transactions issued by reading upward from `a` when the byte at `a + k` is the first exhausted one: the last
one is answered `exhausted`, and it is not issued at all at or beyond 2^AW (spec/20_memory.md R55, R57). -/
def State.issuedTo (s : State) (a k : Nat) : List Nat :=
  List.range' a (if a + k < 2 ^ s.aw then k + 1 else k)

/-! ## What a command leaves behind -/

/-- The state after failure entry, the step having issued these transactions (spec/60_exceptions.md R206, R207). -/
def State.failedAfter (s : State) (e : ErrKind) (issued : List Nat) : State :=
  { s with err := e, out := [], state := .failed, reads := s.reads ++ issued }

/-- `t` is `s` after a data-bearing command of `size` bytes that appended `n` bytes, byte `k` of them being `cell k`,
and issued these transactions (spec/40_interpreter_and_header.md R117). Nothing else differs. -/
structure Appended (s t : State) (size n : Nat) (issued : List Nat) (cell : Nat → Option Byte) : Prop where
  outLen_eq : t.outLen = s.outLen + n
  new_cells : ∀ k < n, t.outByte (s.outLen + k) = cell k
  old_cells : ∀ k < s.outLen, t.outByte k = s.outByte k
  pc_eq : t.pc = s.pc + size
  reads_eq : t.reads = s.reads ++ issued
  state_eq : t.state = s.state
  err_eq : t.err = s.err
  aw_eq : t.aw = s.aw
  src_eq : t.src = s.src
  srcCursor_eq : t.srcCursor = s.srcCursor

/-- `i` is a command of this length in its short form (1 header byte, length 1 to 32) or its extended form (2 header
bytes, length 1 to 1024). -/
def FormOf (short ext : Nat → Instr) (i : Instr) (header length : Nat) : Prop :=
  (i = short length ∧ header = 1 ∧ ShortLength length) ∨ (i = ext length ∧ header = 2 ∧ ExtLength length)

/-- The short and the extended constructor of each data-bearing command (spec/30_encoding.md R85). -/
inductive TwoForms : (Nat → Instr) → (Nat → Instr) → Prop where
  | lit : TwoForms .lit .litX
  | runb : TwoForms .runb .runbX
  | runw : TwoForms .runw .runwX
  | runi : TwoForms .runi .runiX
  | bref : TwoForms .bref .brefX
  | mref : TwoForms .mref .mrefX
  | rref : TwoForms .rref .rrefX

/-! ## The header at pc -/

/-- The header bytes at `pc` are those of `i`. -/
def State.HeaderAt (s : State) (i : Instr) : Prop :=
  ∃ header : List Byte, decode header = .ok (i, []) ∧ s.Holds s.pc header

/-- The offset of a back-reference whose payload stands at `a` (spec/30_encoding.md R87). -/
def State.offsetAt (s : State) (a : Nat) : Option Nat :=
  match s.srcByte a, s.srcByte (a + 1) with
  | some p0, some p1 => some (be16 p0 p1)
  | _, _ => none

/-- The range check of a back-reference with this offset, on a buffer of `outLen` bytes
(spec/60_exceptions.md R200, R203); the other commands have none. -/
def rangeOk (i : Instr) (off outLen : Nat) : Prop :=
  match i with
  | .bref n | .brefX n | .mref n | .mrefX n => off + n ≤ outLen
  | .rref n | .rrefX n => off < outLen ∧ 0 ≤ (off : Int) - n + 1
  | .lit _ | .litX _ | .runb _ | .runbX _ | .runw _ | .runwX _ | .runi _ | .runiX _ => True
  | .endMark | .illFC _ | .illFD _ | .illFE _ => True

/-- The command at `pc` is one that the ceiling check stands before, and would exceed the output ceiling
(test 5 of R205; R115: `END` and the illegal headers have no ceiling check). -/
def State.Overflowing (s : State) (i : Instr) : Prop :=
  i.dataBearing = true ∧ Config.outMax < s.outLen + i.appendCount

/-- A payload byte of the command at `pc` is exhausted (test 6 of R205). -/
def State.PayloadMissing (s : State) (i : Instr) : Prop :=
  ∃ k < i.payloadSize, s.srcByte (s.pc + i.headerSize + k) = none

/-- The command at `pc` names bytes not yet produced (test 7 of R205). -/
def State.OutOfRange (s : State) (i : Instr) : Prop :=
  ∃ off, s.offsetAt (s.pc + i.headerSize) = some off ∧ ¬ rangeOk i off s.outLen

/-- `e` is the error a command with its header at `pc` raises, `none` for no error: tests 4 to 7 of
spec/60_exceptions.md R205, the first one met. -/
structure State.CommandRaises (s : State) (i : Instr) (e : ErrKind) : Prop where
  unknown : i.illegal → e = .unknownCommand
  overflow : ¬ i.illegal → s.Overflowing i → e = .outputOverflow
  truncated : ¬ i.illegal → ¬ s.Overflowing i → s.PayloadMissing i → e = .truncatedInput
  outOfRange : ¬ i.illegal → ¬ s.Overflowing i → ¬ s.PayloadMissing i → s.OutOfRange i →
    e = .backReferenceOutOfRange
  noError : ¬ i.illegal → ¬ s.Overflowing i → ¬ s.PayloadMissing i → ¬ s.OutOfRange i → e = .none

/-- `e` is the error the next step raises, `none` for no error: all tests of R205 in their order. -/
def State.StepRaises (s : State) (e : ErrKind) : Prop :=
  match s.srcByte s.pc with
  | none => e = .truncatedInput
  | some h0 =>
    match classifyFirst h0 with
    | .whole i => s.CommandRaises i e
    | .extended =>
      match s.srcByte (s.pc + 1) with
      | none => e = .truncatedInput
      | some h1 => s.CommandRaises (decodeExtended h0 h1) e

/-! ## Traces and runs -/

/-- The transactions of a decode that started at `a` (spec/20_memory.md R63): contiguous and ascending from `a`; at a
command boundary the next one is at `pc`; in `Done` the last one read the `End` byte; in `Failed` they reach at
least to the failing command. -/
def State.TracedFrom (s : State) (a : Nat) : Prop :=
  ∃ m, s.reads = List.range' a m ∧
    (s.state = .reading → s.pc = a + m) ∧
    (s.state = .done → 1 ≤ m ∧ s.pc = a + m ∧ s.srcByte (a + m - 1) = some 0xFF#8) ∧
    (s.state = .failed → a ≤ s.pc ∧ s.pc ≤ a + m)

/-- A host move that begins a decode or ends one: a write of a start register, or reset. -/
def Event.startsOrResets (e : Event) : Bool :=
  match e with
  | .hostWrite .startAt _ => true
  | .hostWrite .startCur _ => true
  | .reset _ => true
  | .hostWrite .status _ => false
  | .hostWrite .outLen _ => false
  | .hostWrite .srcAddr _ => false
  | .decode => false
  | .readPending => false
  | .hostRead _ => false
  | .outRead _ => false
  | .place _ => false
  | .moveCursor _ => false

/-! ## Copying one byte at a time -/

/-- `n` rounds of: read one cell of the buffer as it stands, pass it through `f`, append it; round `k` reads cell
`index k`. A cell that holds no value would append nothing. -/
def copyOneByOne (f : Byte → Byte) (index : Nat → Nat) : Nat → List Byte → List Byte
  | 0, out => out
  | n + 1, out =>
    let out' := copyOneByOne f index n out
    out' ++ (out'[index n]?.map f).toList

/-! ## Reading an outcome -/

/-- The next state, where there is one. -/
def nextState? (o : StepOutcome) : Option State :=
  match o with
  | .next s => some s
  | .fault _ => none
  | .refused _ => none

end Sys2Proof.Machine
end

