-- ==== Sys2Proof/Certificates/Slice0/Obligations.lean ====
section
/-! DEFINITION. The statements about the model, each with the rule of spec/ it formalises. -/

open Sys2Proof Sys2Proof.Machine

/-! ## Encoding -/

/-- Decoding an encoded instruction gives it back, with whatever bytes follow its header (R81, R82, R84, R89). -/
def Obligations.DecodeOfEncodedInstruction : Prop :=
  ∀ (i : Instr) (rest : List Byte), i.wellFormed = true → decode (encode i ++ rest) = .ok (i, rest)

/-- Each word has one meaning: what decodes is well formed, and its encoding is the bytes that were read. -/
def Obligations.EncodeOfDecodedBytes : Prop :=
  ∀ (bytes rest : List Byte) (i : Instr), decode bytes = .ok (i, rest) →
    i.wellFormed = true ∧ encode i ++ rest = bytes

/-- Header symmetry (R94): `decode_header` of the canonical header gives code and length back and asks for the second
byte only where there is one. The converse does not hold: it also accepts the extended header of every length up to
32, which is never canonical. The canonical header never begins with 0xFC to 0xFF. The clauses after the first are the
spec's inference ("[derived: from rule R93]"). -/
def Obligations.HeaderSymmetry : Prop :=
  (∀ (code : BitVec 3) (length : Nat), code ≠ 7#3 → 1 ≤ length → length ≤ 1024 →
    ∃ h0 tail, encodeHeader code length = some (h0 :: tail) ∧
      decodeHeader h0 (fun _ => tail.head?) = some (.command code.toNat length (1 + tail.length)) ∧
      h0.toNat < 0xFC) ∧
  (∀ (code : BitVec 3) (length : Nat), code ≠ 7#3 → 1 ≤ length → length ≤ 32 →
    ∃ h0 h1, encodeExtended code length = [h0, h1] ∧
      decodeHeader h0 (fun _ => some h1) = some (.command code.toNat length 2) ∧
      ∀ c l, encodeHeader c l ≠ some [h0, h1])

/-- The model's decoder and the spec's `decode_header` (R112) read the same code, length and size, and need the second
byte in the same cases (R113). -/
def Obligations.DecoderAgreesWithHeaderParser : Prop :=
  (∀ (h0 : Byte) (i : Instr), classifyFirst h0 = .whole i →
    ∀ readH1 : Unit → Option Byte, decodeHeader h0 readH1 = some i.header) ∧
  (∀ h0 : Byte, classifyFirst h0 = .extended → decodeHeader h0 (fun _ => none) = none ∧
    ∀ h1, decodeHeader h0 (fun _ => some h1) = some (decodeExtended h0 h1).header)

/-- The sixteen ranges of the first byte (R97): the command and the length of each, and that every first byte selects
exactly one row of the table. The table is the spec's inference ("[derived: from rules R81 to R85, R89, R90]"); its
rows for codes 1 to 6 rest on decision D1 (log entry 12). -/
def Obligations.FirstByteRanges : Prop :=
  ∀ (h0 h1 : Byte) (rest : List Byte),
    (h0.toNat ≤ 0x1F → decode (h0 :: rest) = .ok (.lit (h0.toNat + 1), rest)) ∧
    (0x20 ≤ h0.toNat → h0.toNat ≤ 0x3F → decode (h0 :: rest) = .ok (.runb (h0.toNat - 0x20 + 1), rest)) ∧
    (0x40 ≤ h0.toNat → h0.toNat ≤ 0x5F → decode (h0 :: rest) = .ok (.runw (h0.toNat - 0x40 + 1), rest)) ∧
    (0x60 ≤ h0.toNat → h0.toNat ≤ 0x7F → decode (h0 :: rest) = .ok (.runi (h0.toNat - 0x60 + 1), rest)) ∧
    (0x80 ≤ h0.toNat → h0.toNat ≤ 0x9F → decode (h0 :: rest) = .ok (.bref (h0.toNat - 0x80 + 1), rest)) ∧
    (0xA0 ≤ h0.toNat → h0.toNat ≤ 0xBF → decode (h0 :: rest) = .ok (.mref (h0.toNat - 0xA0 + 1), rest)) ∧
    (0xC0 ≤ h0.toNat → h0.toNat ≤ 0xDF → decode (h0 :: rest) = .ok (.rref (h0.toNat - 0xC0 + 1), rest)) ∧
    (0xE0 ≤ h0.toNat → h0.toNat ≤ 0xE3 →
      decode (h0 :: h1 :: rest) = .ok (.litX ((h0.toNat - 0xE0) * 256 + h1.toNat + 1), rest)) ∧
    (0xE4 ≤ h0.toNat → h0.toNat ≤ 0xE7 →
      decode (h0 :: h1 :: rest) = .ok (.runbX ((h0.toNat - 0xE4) * 256 + h1.toNat + 1), rest)) ∧
    (0xE8 ≤ h0.toNat → h0.toNat ≤ 0xEB →
      decode (h0 :: h1 :: rest) = .ok (.runwX ((h0.toNat - 0xE8) * 256 + h1.toNat + 1), rest)) ∧
    (0xEC ≤ h0.toNat → h0.toNat ≤ 0xEF →
      decode (h0 :: h1 :: rest) = .ok (.runiX ((h0.toNat - 0xEC) * 256 + h1.toNat + 1), rest)) ∧
    (0xF0 ≤ h0.toNat → h0.toNat ≤ 0xF3 →
      decode (h0 :: h1 :: rest) = .ok (.brefX ((h0.toNat - 0xF0) * 256 + h1.toNat + 1), rest)) ∧
    (0xF4 ≤ h0.toNat → h0.toNat ≤ 0xF7 →
      decode (h0 :: h1 :: rest) = .ok (.mrefX ((h0.toNat - 0xF4) * 256 + h1.toNat + 1), rest)) ∧
    (0xF8 ≤ h0.toNat → h0.toNat ≤ 0xFB →
      decode (h0 :: h1 :: rest) = .ok (.rrefX ((h0.toNat - 0xF8) * 256 + h1.toNat + 1), rest)) ∧
    (h0.toNat = 0xFC → decode (h0 :: h1 :: rest) = .ok (.illFC h1, rest)) ∧
    (h0.toNat = 0xFD → decode (h0 :: h1 :: rest) = .ok (.illFD h1, rest)) ∧
    (h0.toNat = 0xFE → decode (h0 :: h1 :: rest) = .ok (.illFE h1, rest)) ∧
    (h0.toNat = 0xFF → decode (h0 :: rest) = .ok (.endMark, rest)) ∧
    (∃ i rest', decode (h0 :: h1 :: rest) = .ok (i, rest') ∧
      (opcodeRows.filter fun r => r.selects h0).map (fun r => r.mnemonic) = [i.mnemonic])

/-- A few words of the spec's own tables (spec/95_test_vectors.md section 2) decode to the instruction they stand for. -/
def Obligations.DecodedWords : Prop :=
  decode [0x1F#8] = .ok (.lit 32, []) ∧ decode [0xE4#8, 0x27#8] = .ok (.runbX 40, []) ∧
  decode [0x42#8] = .ok (.runw 3, []) ∧ decode [0xED#8, 0x03#8] = .ok (.runiX 260, []) ∧
  decode [0x82#8] = .ok (.bref 3, []) ∧ decode [0xF4#8, 0x20#8] = .ok (.mrefX 33, []) ∧
  decode [0xDF#8] = .ok (.rref 32, []) ∧ decode [0xFF#8] = .ok (.endMark, []) ∧
  decode [0xFE#8, 0xFF#8] = .ok (.illFE 0xFF#8, []) ∧ decode [0xE0#8, 0xFF#8] = .ok (.litX 256, [])

/-- The assembler's lines (R95, decision D18; log entry 23): a data-bearing line stands for bytes exactly where its
length is 1 to 1024, and they are the header of its command, short where the line is plain and the length fits and
extended otherwise (R93), followed by its payload; `END`, `.ILL` and `.BYTE` stand for their own bytes. -/
def Obligations.AssembledLines : Prop :=
  (∀ (form : HeaderForm) (line : AsmLine) (short ext : Nat → Instr) (length : Nat) (payload bytes : List Byte),
    (line = .lit form payload ∧ length = payload.length ∧ short = .lit ∧ ext = .litX ∨
     (∃ v, line = .runb form length v ∧ payload = [v] ∧ short = .runb ∧ ext = .runbX) ∨
     (∃ v0 v1, line = .runw form length v0 v1 ∧ payload = [v0, v1] ∧ short = .runw ∧ ext = .runwX) ∨
     (∃ n, line = .runi form length n ∧ payload = [n] ∧ short = .runi ∧ ext = .runiX) ∨
     (∃ off, line = .bref form length off ∧ payload = offsetBytes off ∧ short = .bref ∧ ext = .brefX) ∨
     (∃ off, line = .mref form length off ∧ payload = offsetBytes off ∧ short = .mref ∧ ext = .mrefX) ∨
     (∃ off, line = .rref form length off ∧ payload = offsetBytes off ∧ short = .rref ∧ ext = .rrefX)) →
    (line.assemble = some bytes ↔ ExtLength length ∧
      bytes = encode (if form = .canonical ∧ length ≤ 32 then short length else ext length) ++ payload)) ∧
  AsmLine.endMark.assemble = some (encode .endMark) ∧
  (∀ h0 h1 bytes, (AsmLine.ill h0 h1).assemble = some bytes ↔
    bytes = [h0, h1] ∧ ∃ i : Instr, i.illegal = true ∧ encode i = [h0, h1]) ∧
  (∀ bytes, (AsmLine.bytes bytes).assemble = some bytes)

/-! ## The commands -/

/-- `LIT` and `LIT.X` (R141): the first bytes, the ceiling test that stands before the handler, the payload that runs
out, and the copy. That the ceiling is tested before the payload is read is decision D7 (log entry 11). The record of
transactions is the model's own field (log entry 7). -/
def Obligations.LiteralCommand : Prop :=
  (∀ h0 : Byte, h0.toNat ≤ 0x1F → decode [h0] = .ok (.lit (h0.toNat + 1), [])) ∧
  (∀ h0 h1 : Byte, 0xE0 ≤ h0.toNat → h0.toNat ≤ 0xE3 →
    decode [h0, h1] = .ok (.litX ((h0.toNat - 0xE0) * 256 + h1.toNat + 1), [])) ∧
  ∀ (i : Instr) (header length : Nat) (s : State), FormOf .lit .litX i header length →
    (Config.outMax < s.outLen + length → exec i s = .next (s.failedAfter .outputOverflow [])) ∧
    (s.outLen + length ≤ Config.outMax → ∀ k < length, s.FirstMissing (s.pc + header) k →
      exec i s = .next (s.failedAfter .truncatedInput (s.issuedTo (s.pc + header) k))) ∧
    (s.outLen + length ≤ Config.outMax → s.Present (s.pc + header) length →
      ∃ t, exec i s = .next t ∧
        Appended s t (header + length) length (List.range' (s.pc + header) length)
          (fun k => s.srcByte (s.pc + header + k)))

/-- `RUNB` and `RUNB.X` (R142). The code value of the first two clauses is decision D1 (log entry 12); that the
ceiling is tested before the payload is read is decision D7 (log entry 11). The record of transactions is the model's
own field (log entry 7). -/
def Obligations.RunByteCommand : Prop :=
  (∀ h0 : Byte, 0x20 ≤ h0.toNat → h0.toNat ≤ 0x3F → decode [h0] = .ok (.runb (h0.toNat - 0x20 + 1), [])) ∧
  (∀ h0 h1 : Byte, 0xE4 ≤ h0.toNat → h0.toNat ≤ 0xE7 →
    decode [h0, h1] = .ok (.runbX ((h0.toNat - 0xE4) * 256 + h1.toNat + 1), [])) ∧
  ∀ (i : Instr) (header length : Nat) (s : State), FormOf .runb .runbX i header length →
    (Config.outMax < s.outLen + length → exec i s = .next (s.failedAfter .outputOverflow [])) ∧
    (s.outLen + length ≤ Config.outMax → s.srcByte (s.pc + header) = none →
      exec i s = .next (s.failedAfter .truncatedInput (s.issuedTo (s.pc + header) 0))) ∧
    (∀ v, s.outLen + length ≤ Config.outMax → s.srcByte (s.pc + header) = some v →
      ∃ t, exec i s = .next t ∧
        Appended s t (header + 1) length [s.pc + header] (fun _ => some v))

/-- `RUNW` and `RUNW.X` (R143): the ceiling counts two bytes per unit; the pair goes out in source order. The code
value of the first two clauses is decision D1 (log entry 12); that the ceiling is tested before the payload is read is
decision D7 (log entry 11). The record of transactions is the model's own field (log entry 7). -/
def Obligations.RunWordCommand : Prop :=
  (∀ h0 : Byte, 0x40 ≤ h0.toNat → h0.toNat ≤ 0x5F → decode [h0] = .ok (.runw (h0.toNat - 0x40 + 1), [])) ∧
  (∀ h0 h1 : Byte, 0xE8 ≤ h0.toNat → h0.toNat ≤ 0xEB →
    decode [h0, h1] = .ok (.runwX ((h0.toNat - 0xE8) * 256 + h1.toNat + 1), [])) ∧
  ∀ (i : Instr) (header length : Nat) (s : State), FormOf .runw .runwX i header length →
    (Config.outMax < s.outLen + 2 * length → exec i s = .next (s.failedAfter .outputOverflow [])) ∧
    (s.outLen + 2 * length ≤ Config.outMax → ∀ k < 2, s.FirstMissing (s.pc + header) k →
      exec i s = .next (s.failedAfter .truncatedInput (s.issuedTo (s.pc + header) k))) ∧
    (∀ v0 v1, s.outLen + 2 * length ≤ Config.outMax → s.srcByte (s.pc + header) = some v0 →
      s.srcByte (s.pc + header + 1) = some v1 →
      ∃ t, exec i s = .next t ∧
        Appended s t (header + 2) (2 * length) [s.pc + header, s.pc + header + 1]
          (fun k => if k % 2 = 0 then some v0 else some v1))

/-- `RUNI` and `RUNI.X` (R146). The code value of the first two clauses is decision D1 (log entry 12); that the
ceiling is tested before the payload is read is decision D7 (log entry 11). The record of transactions is the model's
own field (log entry 7). -/
def Obligations.RunIncrementCommand : Prop :=
  (∀ h0 : Byte, 0x60 ≤ h0.toNat → h0.toNat ≤ 0x7F → decode [h0] = .ok (.runi (h0.toNat - 0x60 + 1), [])) ∧
  (∀ h0 h1 : Byte, 0xEC ≤ h0.toNat → h0.toNat ≤ 0xEF →
    decode [h0, h1] = .ok (.runiX ((h0.toNat - 0xEC) * 256 + h1.toNat + 1), [])) ∧
  ∀ (i : Instr) (header length : Nat) (s : State), FormOf .runi .runiX i header length →
    (Config.outMax < s.outLen + length → exec i s = .next (s.failedAfter .outputOverflow [])) ∧
    (s.outLen + length ≤ Config.outMax → s.srcByte (s.pc + header) = none →
      exec i s = .next (s.failedAfter .truncatedInput (s.issuedTo (s.pc + header) 0))) ∧
    (∀ v, s.outLen + length ≤ Config.outMax → s.srcByte (s.pc + header) = some v →
      ∃ t, exec i s = .next t ∧
        Appended s t (header + 1) length [s.pc + header]
          (fun k => some (BitVec.ofNat 8 ((v.toNat + k) % 256))))

/-- `BREF` and `BREF.X` (R161). The code value of the first two clauses is decision D1 (log entry 12); that the
ceiling is tested before the payload is read, and that one before the range check, is decision D7 (log entry 11). The
record of transactions is the model's own field (log entry 7). -/
def Obligations.BackRefCommand : Prop :=
  (∀ h0 : Byte, 0x80 ≤ h0.toNat → h0.toNat ≤ 0x9F → decode [h0] = .ok (.bref (h0.toNat - 0x80 + 1), [])) ∧
  (∀ h0 h1 : Byte, 0xF0 ≤ h0.toNat → h0.toNat ≤ 0xF3 →
    decode [h0, h1] = .ok (.brefX ((h0.toNat - 0xF0) * 256 + h1.toNat + 1), [])) ∧
  ∀ (i : Instr) (header length : Nat) (s : State), FormOf .bref .brefX i header length →
    (Config.outMax < s.outLen + length → exec i s = .next (s.failedAfter .outputOverflow [])) ∧
    (s.outLen + length ≤ Config.outMax → ∀ k < 2, s.FirstMissing (s.pc + header) k →
      exec i s = .next (s.failedAfter .truncatedInput (s.issuedTo (s.pc + header) k))) ∧
    (∀ p0 p1 : Byte, s.outLen + length ≤ Config.outMax → s.srcByte (s.pc + header) = some p0 →
      s.srcByte (s.pc + header + 1) = some p1 →
      (s.outLen < p0.toNat * 256 + p1.toNat + length →
        exec i s = .next (s.failedAfter .backReferenceOutOfRange [s.pc + header, s.pc + header + 1])) ∧
      (p0.toNat * 256 + p1.toNat + length ≤ s.outLen →
        ∃ t, exec i s = .next t ∧
          Appended s t (header + 2) length [s.pc + header, s.pc + header + 1]
            (fun k => s.outByte (p0.toNat * 256 + p1.toNat + k))))

/-- `MREF` and `MREF.X` (R162): as `BREF`, bit `j` of each copied byte being bit `7 - j` of the byte read (R130). The
code value is decision D1 (log entry 12), the order of the checks decision D7 (log entry 11). The record of
transactions is the model's own field (log entry 7). -/
def Obligations.MirrorBackRefCommand : Prop :=
  (∀ h0 : Byte, 0xA0 ≤ h0.toNat → h0.toNat ≤ 0xBF → decode [h0] = .ok (.mref (h0.toNat - 0xA0 + 1), [])) ∧
  (∀ h0 h1 : Byte, 0xF4 ≤ h0.toNat → h0.toNat ≤ 0xF7 →
    decode [h0, h1] = .ok (.mrefX ((h0.toNat - 0xF4) * 256 + h1.toNat + 1), [])) ∧
  ∀ (i : Instr) (header length : Nat) (s : State), FormOf .mref .mrefX i header length →
    (Config.outMax < s.outLen + length → exec i s = .next (s.failedAfter .outputOverflow [])) ∧
    (s.outLen + length ≤ Config.outMax → ∀ k < 2, s.FirstMissing (s.pc + header) k →
      exec i s = .next (s.failedAfter .truncatedInput (s.issuedTo (s.pc + header) k))) ∧
    (∀ p0 p1 : Byte, s.outLen + length ≤ Config.outMax → s.srcByte (s.pc + header) = some p0 →
      s.srcByte (s.pc + header + 1) = some p1 →
      (s.outLen < p0.toNat * 256 + p1.toNat + length →
        exec i s = .next (s.failedAfter .backReferenceOutOfRange [s.pc + header, s.pc + header + 1])) ∧
      (p0.toNat * 256 + p1.toNat + length ≤ s.outLen →
        ∃ t, exec i s = .next t ∧
          Appended s t (header + 2) length [s.pc + header, s.pc + header + 1]
            (fun k => (s.outByte (p0.toNat * 256 + p1.toNat + k)).map rev8) ∧
          ∀ k < length, ∀ b c, s.outByte (p0.toNat * 256 + p1.toNat + k) = some b →
            t.outByte (s.outLen + k) = some c → ∀ j < 8, c.getLsbD j = b.getLsbD (7 - j)))

/-- `RREF` and `RREF.X` (R163): both range checks; the byte appended `k`-th is `out[off - k]`. The code value is
decision D1 (log entry 12), the order of the checks decision D7 (log entry 11), the test `off >= out_len` decision D9.
The record of transactions is the model's own field (log entry 7). -/
def Obligations.ReverseBackRefCommand : Prop :=
  (∀ h0 : Byte, 0xC0 ≤ h0.toNat → h0.toNat ≤ 0xDF → decode [h0] = .ok (.rref (h0.toNat - 0xC0 + 1), [])) ∧
  (∀ h0 h1 : Byte, 0xF8 ≤ h0.toNat → h0.toNat ≤ 0xFB →
    decode [h0, h1] = .ok (.rrefX ((h0.toNat - 0xF8) * 256 + h1.toNat + 1), [])) ∧
  ∀ (i : Instr) (header length : Nat) (s : State), FormOf .rref .rrefX i header length →
    (Config.outMax < s.outLen + length → exec i s = .next (s.failedAfter .outputOverflow [])) ∧
    (s.outLen + length ≤ Config.outMax → ∀ k < 2, s.FirstMissing (s.pc + header) k →
      exec i s = .next (s.failedAfter .truncatedInput (s.issuedTo (s.pc + header) k))) ∧
    (∀ p0 p1 : Byte, s.outLen + length ≤ Config.outMax → s.srcByte (s.pc + header) = some p0 →
      s.srcByte (s.pc + header + 1) = some p1 →
      (s.outLen ≤ p0.toNat * 256 + p1.toNat ∨ ((p0.toNat * 256 + p1.toNat : Nat) : Int) - length + 1 < 0 →
        exec i s = .next (s.failedAfter .backReferenceOutOfRange [s.pc + header, s.pc + header + 1])) ∧
      (p0.toNat * 256 + p1.toNat < s.outLen → 0 ≤ ((p0.toNat * 256 + p1.toNat : Nat) : Int) - length + 1 →
        ∃ t, exec i s = .next t ∧
          Appended s t (header + 2) length [s.pc + header, s.pc + header + 1]
            (fun k => s.outByte (p0.toNat * 256 + p1.toNat - k))))

/-- `END` (R180): no ceiling check, `pc` past the byte, `Done`, the output and `err` unchanged; a step on the byte
0xFF does that and reads nothing more; a stream that has no byte there fails. The last clause is R204. The record of
transactions is the model's own field (log entry 7). -/
def Obligations.EndCommand : Prop :=
  (∀ s : State, exec .endMark s = .next { s with pc := s.pc + 1, state := .done }) ∧
  (∀ s : State, s.state = .reading → s.srcByte s.pc = some 0xFF#8 →
    step s = .next { s with pc := s.pc + 1, state := .done, reads := s.reads ++ [s.pc] }) ∧
  (∀ s : State, s.state = .reading → s.srcByte s.pc = none →
    step s = .next (s.failedAfter .truncatedInput (s.issuedTo s.pc 0)))

/-- The illegal headers (R201): `UnknownCommand` after the second byte is read, with no ceiling check and no payload
read; `TruncatedInput` where the second byte is exhausted; and no other first byte raises `UnknownCommand`. That no
ceiling check and no payload read is made, and that `TruncatedInput` wins on the second byte, is R114, whose order is
decision D7 (log entry 11), with R204. The record of transactions is the model's own field (log entry 7). -/
def Obligations.UnknownCommandRaised : Prop :=
  (∀ (s : State) (h1 : Byte),
    exec (.illFC h1) s = .next (s.failedAfter .unknownCommand []) ∧
    exec (.illFD h1) s = .next (s.failedAfter .unknownCommand []) ∧
    exec (.illFE h1) s = .next (s.failedAfter .unknownCommand [])) ∧
  (∀ (s : State) (h0 : Byte), s.state = .reading → s.srcByte s.pc = some h0 → 0xFC ≤ h0.toNat → h0.toNat ≤ 0xFE →
    (∀ h1, s.srcByte (s.pc + 1) = some h1 →
      step s = .next (s.failedAfter .unknownCommand [s.pc, s.pc + 1])) ∧
    (s.srcByte (s.pc + 1) = none →
      step s = .next (s.failedAfter .truncatedInput (s.issuedTo s.pc 1)))) ∧
  (∀ s t : State, s.state = .reading → s.err = .none → step s = .next t → t.err = .unknownCommand →
    ∃ h0 : Byte, s.srcByte s.pc = some h0 ∧ 0xFC ≤ h0.toNat ∧ h0.toNat ≤ 0xFE)

/-- The output ceiling (R202, R144): a step on a data-bearing command that would append `n` bytes, `2 * length` for
`RUNW` and `length` for all others, raises `OutputOverflow` if and only if the output would become longer than 65 535
bytes; the payload is not read then. On overflow nothing is appended and there is no result. That the check stands
before the payload read is decision D7 (log entry 11). The record of transactions is the model's own field (log entry
7). -/
def Obligations.OutputCeiling : Prop :=
  ∀ (s t : State) (i : Instr) (length n : Nat), s.state = .reading → s.err = .none → s.HeaderAt i →
    ((i = .runw length ∨ i = .runwX length) ∧ n = 2 * length ∨
      i ∈ [Instr.lit length, .litX length, .runb length, .runbX length, .runi length, .runiX length, .bref length,
        .brefX length, .mref length, .mrefX length, .rref length, .rrefX length] ∧ n = length) →
    step s = .next t →
    (t.err = .outputOverflow ↔ 65535 < s.outLen + n) ∧
    (t.err = .outputOverflow →
      t.state = .failed ∧ t.out = [] ∧ t.reads = s.reads ++ List.range' s.pc i.headerSize) ∧
    (t.err = .none → t.outLen = s.outLen + n)

/-- The short and the extended form of a command do the same (R116): over equal buffers and equal payloads they leave
the same output, error and state, and where they complete the extended form advances `pc` by one more. The rule is the
spec's inference ("[derived: from rule R111, ...]"). -/
def Obligations.FormsAgree : Prop :=
  ∀ (short ext : Nat → Instr) (length : Nat) (s u t v : State), TwoForms short ext → ShortLength length →
    s.out = u.out → s.err = u.err → s.state = u.state →
    (∀ j < (short length).payloadSize, s.srcByte (s.pc + 1 + j) = u.srcByte (u.pc + 2 + j)) →
    exec (short length) s = .next t → exec (ext length) u = .next v →
    t.out = v.out ∧ t.err = v.err ∧ t.state = v.state ∧
    (t.err = s.err → s.err = .none → t.pc + (u.pc + 1) = v.pc + s.pc)

/-! ## Frames -/

/-- What a data-bearing command leaves unchanged (R117, R140 (d), R160 (e), R207): always the whole source side; on
completion `state`, `err` and every output cell but the `n` cells from `out_len` upward that it stores to; on failure
`pc`, every register being as failure entry leaves it. -/
def Obligations.FrameOfDataCommands : Prop :=
  ∀ (i : Instr) (s t : State), i.dataBearing = true → exec i s = .next t →
    t.aw = s.aw ∧ t.src = s.src ∧ t.srcCursor = s.srcCursor ∧ (∀ a, t.srcByte a = s.srcByte a) ∧
    ((t.state = s.state ∧ t.err = s.err ∧ t.pc = s.pc + i.totalSize ∧ t.outLen = s.outLen + i.appendCount ∧
        ∀ k, ¬ (s.outLen ≤ k ∧ k < s.outLen + i.appendCount) → t.outByte k = s.outByte k) ∨
      (∃ issued, t = s.failedAfter t.err issued ∧
        (t.err = .outputOverflow ∨ t.err = .truncatedInput ∨ t.err = .backReferenceOutOfRange)))

/-- What `END` and the illegal headers leave unchanged: `END` everything but `pc` and `state`; an illegal header
everything but what failure entry writes (R180, R206). The record of transactions is the model's own field (log entry
7). -/
def Obligations.FrameOfEndAndIllegal : Prop :=
  ∀ (i : Instr) (s t : State), i.dataBearing = false → exec i s = .next t →
    t.aw = s.aw ∧ t.src = s.src ∧ t.srcCursor = s.srcCursor ∧ t.reads = s.reads ∧
    (∀ a, t.srcByte a = s.srcByte a) ∧
    (i = .endMark → t.err = s.err ∧ ∀ k, t.outByte k = s.outByte k) ∧
    (i ≠ .endMark → t.pc = s.pc ∧ t.err = .unknownCommand ∧ t.state = .failed ∧ ∀ k, t.outByte k = none)

/-! ## The step -/

/-- A step runs the decoded instruction: with the header bytes of `i` at `pc`, `step` is `exec i` on the state with
the header's transactions recorded (R110, R111). The record of transactions is the model's own field (log entry 7). -/
def Obligations.StepRunsDecodedInstruction : Prop :=
  ∀ (s : State) (i : Instr), s.state = .reading → s.HeaderAt i →
    i.wellFormed = true ∧ step s = exec i { s with reads := s.reads ++ List.range' s.pc i.headerSize }

/-- A header that is not complete raises `TruncatedInput` (R204); the second byte is needed, and read, only where the
first one has the escape marker and is not 0xFF (R113, decision D8). The record of transactions is the model's own
field (log entry 7). -/
def Obligations.HeaderTruncation : Prop :=
  ∀ s : State, s.state = .reading →
    (s.srcByte s.pc = none → step s = .next (s.failedAfter .truncatedInput (s.issuedTo s.pc 0))) ∧
    (∀ h0 : Byte, s.srcByte s.pc = some h0 → s.srcByte (s.pc + 1) = none →
      (h0 &&& 0xE0#8 = 0xE0#8 ∧ h0 ≠ 0xFF#8 →
        step s = .next (s.failedAfter .truncatedInput (s.issuedTo s.pc 1))) ∧
      (¬ (h0 &&& 0xE0#8 = 0xE0#8 ∧ h0 ≠ 0xFF#8) →
        ∃ i, decode [h0] = .ok (i, []) ∧ step s = exec i { s with reads := s.reads ++ [s.pc] }))

/-- `TruncatedInput` (R204) is raised exactly where a needed byte is exhausted: the first header byte; the second one
where the first has the escape marker and is not 0xFF; and, once the unknown-command and the ceiling check have
passed, a payload byte. -/
def Obligations.TruncatedInputRaised : Prop :=
  (∀ s t : State, s.state = .reading → s.err = .none → step s = .next t →
    (t.err = .truncatedInput ↔
      s.srcByte s.pc = none ∨
      (∃ h0 : Byte, s.srcByte s.pc = some h0 ∧ h0 &&& 0xE0#8 = 0xE0#8 ∧ h0 ≠ 0xFF#8 ∧ s.srcByte (s.pc + 1) = none) ∨
      (∃ i, s.HeaderAt i ∧ i.illegal = false ∧ ¬ s.Overflowing i ∧ s.PayloadMissing i))) ∧
  (∀ (s : State) (a : Nat), 2 ^ s.aw ≤ a → s.srcByte a = none)

/-- `BackReferenceOutOfRange` (R203) is raised by the range checks of the three back-references and by nothing else:
after the two offset bytes have been read, and with nothing appended. The checks are those of R161 to R163; the test
`off >= out_len` of `RREF` is decision D9, and that the range check comes after the ceiling check and the payload read
is decision D7 (log entry 11). The record of transactions is the model's own field (log entry 7). -/
def Obligations.RangeChecksRaise : Prop :=
  (∀ (s t : State) (i : Instr), s.state = .reading → s.err = .none → s.HeaderAt i → step s = .next t →
    (t.err = .backReferenceOutOfRange ↔
      i.backReference = true ∧ ¬ s.Overflowing i ∧ ¬ s.PayloadMissing i ∧ s.OutOfRange i) ∧
    (t.err = .backReferenceOutOfRange →
      t.reads = s.reads ++ List.range' s.pc (i.headerSize + 2) ∧ t.out = [])) ∧
  (∀ (off length outLen : Nat),
    (¬ rangeOk (.bref length) off outLen ↔ outLen < off + length) ∧
    (¬ rangeOk (.mref length) off outLen ↔ outLen < off + length) ∧
    (¬ rangeOk (.rref length) off outLen ↔ outLen ≤ off ∨ (off : Int) - length + 1 < 0) ∧
    (rangeOk (.brefX length) off outLen ↔ rangeOk (.bref length) off outLen) ∧
    (rangeOk (.mrefX length) off outLen ↔ rangeOk (.mref length) off outLen) ∧
    (rangeOk (.rrefX length) off outLen ↔ rangeOk (.rref length) off outLen))

/-- The decoder has a step exactly in `Reading`; in `Idle`, `Done` and `Failed` it has none (R110, decision D17). That
asking for a step there is the fault `noStep` is the model's choice (log entry 8). -/
def Obligations.StepEnabledExactlyInReading : Prop :=
  ∀ s : State, ((∃ t, step s = .next t) ↔ s.state = .reading) ∧ (s.state ≠ .reading → step s = .fault .noStep)

/-- Failure entry and precise exceptions (R206, R207): a step that fails changes `err`, `out_len`, `out` and `state`
and nothing else of the machine; `pc` keeps the failing command's address (decision D10). The record of transactions
is the model's own field (log entry 7). -/
def Obligations.FailureIsPrecise : Prop :=
  ∀ s t : State, s.state = .reading → step s = .next t → t.state = .failed →
    ∃ issued, t = s.failedAfter t.err issued ∧ t.err ≠ .none ∧ t.outLen = 0 ∧ t.pc = s.pc ∧
      ∀ k, t.outByte k = none

/-- The error a step raises is the first one met in the order of R205, and none is raised where none applies. The
order of tests 4 to 7 is decision D7 (log entry 11). -/
def Obligations.FirstErrorIsRaised : Prop :=
  ∀ s t : State, s.state = .reading → s.err = .none → step s = .next t →
    s.StepRaises t.err ∧ (t.err ≠ .none ↔ t.state = .failed)

/-- A command that completes advances `pc` by exactly its size in bytes, header and payload (R23, R88), so that the
next one is fetched right after its last payload byte; its transactions are those bytes, in order. The size table R88
is the spec's inference ("[derived: from rules R81, R82, R86 ...]"). That the transactions are exactly the bytes of
the command is R63 and R111, R63 being one too ("[derived: from `10_state.md` rule R23, ...]"); the record is the
model's own field (log entry 7, DESIGN CHOICE). -/
def Obligations.PcAdvancesByCommandSize : Prop :=
  ∀ (s t : State) (i : Instr), s.state = .reading → s.HeaderAt i → step s = .next t → t.state ≠ .failed →
    t.pc = s.pc + i.totalSize ∧ t.reads = s.reads ++ List.range' s.pc i.totalSize

/-- Output-space writes are appends only (R58): a step that does not fail leaves every cell below the old `out_len` as
it was and appends the command's `n` bytes right there, no gap; one that fails appends none. -/
def Obligations.OutputIsAppendOnly : Prop :=
  ∀ (s t : State) (i : Instr), s.state = .reading → s.HeaderAt i → step s = .next t →
    (t.state ≠ .failed → s.out <+: t.out ∧ t.outLen = s.outLen + i.appendCount) ∧
    (t.state = .failed → t.outLen = 0)

/-- The decoder never writes the source side (R56, R65). -/
def Obligations.SourceNeverWritten : Prop :=
  ∀ s t : State, step s = .next t →
    t.aw = s.aw ∧ t.src = s.src ∧ t.srcCursor = s.srcCursor ∧ ∀ a, t.srcByte a = s.srcByte a

/-- The top of the source space (R57): at and beyond 2^AW every read is exhausted, and a step with `pc` there raises
`TruncatedInput` without issuing a transaction (decision D2). The record of transactions, and which of them count, is
the model's (log entries 7 and 17). -/
def Obligations.NoWrapAtTopOfSource : Prop :=
  ∀ s : State, (∀ a, 2 ^ s.aw ≤ a → s.srcByte a = none) ∧
    (s.state = .reading → 2 ^ s.aw ≤ s.pc → step s = .next (s.failedAfter .truncatedInput []))

/-! ## Invariant -/

/-- After reset, for every choice of the OPEN parameters and of the unspecified `pc`, the invariant holds, and it
holds of `State.reset`, whose values for those are the model's choice (log entries 1 to 4). -/
def Obligations.ResetMeetsInvariant : Prop :=
  (∀ (aw : Nat) (src : List Host.Cell) (cursor pc : Nat), 1 ≤ aw → Memory.wf aw src → cursor < 2 ^ aw → pc < 2 ^ aw →
    (State.resetWith aw src cursor pc).Inv) ∧
  State.reset.Inv

/-- Every step keeps the invariant: R40 (a) to (d) (the spec's inference), `pc` at most 2^AW (R57), and the source in
its canonical form (the model's own, log entry 2). -/
def Obligations.StepKeepsInvariant : Prop :=
  ∀ s t : State, s.Inv → step s = .next t → t.Inv

/-- Every move of the decoder, the host, the byte source and the platform keeps the invariant. R40 is the spec's
inference ("[derived: ...]"). The canonical form of the source is the model's own (log entry 2), and the claim holds
for the moves `place`, `moveCursor`, `reset` and the starts because the model refuses values that do not fit in AW
bits and contents that are no source, its own choices (log entries 13 and 14). -/
def Obligations.EveryMoveKeepsInvariant : Prop :=
  ∀ (e : Event) (s t : State), s.Inv → act e s = .next t → t.Inv

/-- `Reading` is left only by `END`, failure entry or reset; the other states only by a host start, to `Reading`, or
by reset (R21; the states `Idle` and `Failed` are decision D5). -/
def Obligations.StateTransitions : Prop :=
  ∀ (e : Event) (s t : State), act e s = .next t → t.state ≠ s.state →
    (s.state = .reading →
      (e = .decode ∧ t.state = .done ∧ s.srcByte s.pc = some 0xFF#8) ∨
      (e = .decode ∧ t.state = .failed) ∨
      (∃ pc, e = .reset pc ∧ t.state = .idle)) ∧
    (s.state ≠ .reading →
      ((∃ a, e = .hostWrite .startAt a) ∨ (∃ v, e = .hostWrite .startCur v)) ∧ t.state = .reading ∨
      (∃ pc, e = .reset pc ∧ t.state = .idle))

/-- The source content is constant during a run (R65, R237, decision D16): while `Reading` no move changes it, and the
platform's move that would is refused (log entry 14). -/
def Obligations.SourceIsConstantDuringRun : Prop :=
  ∀ (e : Event) (s : State), s.state = .reading →
    (∀ t, act e s = .next t → t.src = s.src ∧ t.aw = s.aw) ∧
    ∀ src, act (.place src) s = .refused .sourceChangedDuringRun

/-! ## Runs -/

/-- The source reads of a decode (R63): from the start address upward, contiguous, none skipped and none repeated; a
decode that ends in `Done` read the `End` byte last. The rule is the spec's inference ("[derived: from `10_state.md`
rule R23, ...]"); the record is the model's own field (log entry 7). -/
def Obligations.SourceReadsAreContiguous : Prop :=
  ∀ (a k : Nat) (s r : State), s.state ≠ .reading → hostStart a s = .next r → (decodeRun k r).TracedFrom a

/-- Every decode ends (R119): from an accepted start, within 65 536 steps the state is `Done` or `Failed`; in general
within one step more than the bytes that still fit. The rule is the spec's inference ("[derived: from rules R111 and
R115 ...]"). R119 says it "provided every source read is eventually answered"; a step of the model takes every read as
answered, the model's choice (log entry 16, DESIGN CHOICE, unsafe here), so a read that is never answered (R243) is
not counted against it. -/
def Obligations.DecodeTerminates : Prop :=
  (∀ s : State, s.Inv → s.state = .reading → ∃ k ≤ Config.outMax - s.outLen + 1,
    (decodeRun k s).state = .done ∨ (decodeRun k s).state = .failed) ∧
  (∀ (a : Nat) (s r : State), s.Inv → s.state ≠ .reading → hostStart a s = .next r → ∃ k ≤ 65536,
    (decodeRun k r).state = .done ∨ (decodeRun k r).state = .failed)

/-- The decoder is deterministic (R121), and a decode depends on nothing that reset or an earlier decode left behind
(R231): two machines with the same source, started at the same address, agree after any number of steps. Both rules
are the spec's inferences ("[derived: ...]"). The record of transactions is the model's own field (log entry 7). -/
def Obligations.DecodeIsDeterministic : Prop :=
  ∀ (a k : Nat) (s u r v : State), s.aw = u.aw → s.src = u.src → s.state ≠ .reading → u.state ≠ .reading →
    hostStart a s = .next r → hostStart a u = .next v →
    (decodeRun k r).state = (decodeRun k v).state ∧ (decodeRun k r).err = (decodeRun k v).err ∧
    (decodeRun k r).outLen = (decodeRun k v).outLen ∧ (decodeRun k r).pc = (decodeRun k v).pc ∧
    (decodeRun k r).out = (decodeRun k v).out ∧ (decodeRun k r).reads = (decodeRun k v).reads

/-- What the host receives at the end of a run (R186): in `Done` the result through `OUT_LEN` and `OUT_RD`, and
`SRC_ADDR` one past the `End` byte; in `Failed` no byte, `OUT_LEN` 0, the error kind in `STATUS` and the failing
command's address in `SRC_ADDR`. The value of `SRC_ADDR` at 2^AW is not claimed (log entry 10). -/
def Obligations.HostReceivesResult : Prop :=
  ∀ s t : State, s.Inv → s.state = .reading → step s = .next t →
    (t.state = .done →
      t.out = s.out ∧ hostRead .outLen t = some t.outLen ∧ hostRead .status t = some 2 ∧
      (∀ i : BitVec 16, i.toNat < t.outLen → t.outRd i = t.outByte i.toNat ∧ (t.outRd i).isSome) ∧
      (∀ i : BitVec 16, t.outLen ≤ i.toNat → t.outRd i = none) ∧
      (s.pc + 1 < 2 ^ s.aw → hostRead .srcAddr t = some (s.pc + 1))) ∧
    (t.state = .failed →
      hostRead .outLen t = some 0 ∧ (∀ i : BitVec 16, t.outRd i = none) ∧
      hostRead .status t = some (t.err.code.toNat * 4 + 3) ∧ t.err ≠ .none ∧
      (s.pc < 2 ^ s.aw → hostRead .srcAddr t = some s.pc))

/-- `Done` is terminal for the decode (R181): no step; and the result is stable under every move but a host start or
reset. -/
def Obligations.DoneIsStable : Prop :=
  ∀ (e : Event) (s t : State), s.state = .done → e.startsOrResets = false → act e s = .next t →
    e ≠ .decode ∧ t.state = .done ∧ t.out = s.out ∧ t.err = s.err ∧ t.pc = s.pc

/-! ## Back-references -/

/-- Bit reversal: bit `i` of the result is bit `7 - i` of the operand (R130), and it is an involution, hence a
permutation of the byte values (R131). -/
def Obligations.BitReversal : Prop :=
  (∀ (b : Byte) (i : Nat), i < 8 → (rev8 b).getLsbD i = b.getLsbD (7 - i)) ∧
  (∀ b : Byte, rev8 (rev8 b) = b) ∧ (∀ b c : Byte, rev8 b = rev8 c → b = c) ∧ ∀ c : Byte, ∃ b, rev8 b = c

/-- No overlap (R164): once the range check has passed, copying one byte at a time, each round reading the buffer as
it then stands, gives what reading the whole range first gives. The rule is the spec's inference ("[derived: from
rules R161 to R163]"). -/
def Obligations.CopyOrderDoesNotMatter : Prop :=
  ∀ (s : State) (off length : Nat),
    (off + length ≤ s.outLen →
      copyOneByOne id (fun k => off + k) length s.out = s.out ++ forwardRange s off length ∧
      copyOneByOne rev8 (fun k => off + k) length s.out = s.out ++ (forwardRange s off length).map rev8) ∧
    (off < s.outLen → length ≤ off + 1 →
      copyOneByOne id (fun k => off - k) length s.out = s.out ++ backwardRange s off length)

/-- The offset 65 535 never passes (R165): with offset bytes FF FF every back-reference fails; and a `BREF` or `MREF`
that completes has `off + 2 * length <= 65 535`. The rule is the spec's inference ("[derived: from rules R161 to R163
and ... R115]"). -/
def Obligations.LastOffsetNeverPasses : Prop :=
  ∀ (i : Instr) (s t : State), i.backReference = true → i.wellFormed = true → s.Inv → exec i s = .next t →
    (s.offsetAt (s.pc + i.headerSize) = some 65535 → t.state = .failed) ∧
    (∀ off n, i ∈ [Instr.bref n, .brefX n, .mref n, .mrefX n] → s.offsetAt (s.pc + i.headerSize) = some off →
      s.state = .reading → t.state = .reading → off + 2 * n ≤ 65535)

/-! ## Host and reset -/

/-- `Start(a)` (R182), accepted in `Idle`, `Done` and `Failed` (decision D12). The record of transactions is the
model's own field (log entry 7). -/
def Obligations.StartBeginsDecode : Prop :=
  ∀ (a : Nat) (s : State), a < 2 ^ s.aw → s.state ≠ .reading →
    hostWrite .startAt a s =
      .next { s with pc := a, out := [], err := .none, state := .reading, reads := [] } ∧
    ∀ t, hostWrite .startAt a s = .next t → t.outLen = 0 ∧ ∀ i, t.outByte i = none

/-- `StartAtCursor` (R183) is `Start(a)` with the cursor's value at that moment, whatever value is written (decision
D12). The record of transactions is the model's own field (log entry 7). -/
def Obligations.StartAtCursorSamplesCursor : Prop :=
  ∀ (v : Nat) (s : State), s.srcCursor < 2 ^ s.aw → s.state ≠ .reading →
    hostWrite .startCur v s = hostWrite .startAt s.srcCursor s ∧
    hostWrite .startCur v s =
      .next { s with pc := s.srcCursor, out := [], err := .none, state := .reading, reads := [] }

/-- A start while `Reading` is ignored: no register changes (R184, decision D12). -/
def Obligations.StartWhileReadingIsIgnored : Prop :=
  ∀ (a v : Nat) (s : State), s.state = .reading → a < 2 ^ s.aw → s.srcCursor < 2 ^ s.aw →
    hostWrite .startAt a s = .next s ∧ hostWrite .startCur v s = .next s

/-- The host's registers (R30 to R33): `STATUS` holds `STATE` in bits 1:0 and `ERR` in bits 4:2 with the codes of R21
and R25, `OUT_LEN` reads `out_len`, `SRC_ADDR` reads `pc` below 2^AW; write-only registers read nothing and writes of
read-only registers do nothing. Codes and registers are decisions D5, D6 and D11; at 2^AW nothing is claimed of
`SRC_ADDR` (log entry 10). -/
def Obligations.HostRegisters : Prop :=
  (∀ s : State, s.statusReg.extractLsb' 0 2 = s.state.code ∧ s.statusReg.extractLsb' 2 3 = s.err.code ∧
    hostRead .status s = some (s.err.code.toNat * 4 + s.state.code.toNat)) ∧
  ([DecoderState.idle, .reading, .done, .failed].map fun d => d.code.toNat) = [0, 1, 2, 3] ∧
  ([ErrKind.none, .unknownCommand, .outputOverflow, .backReferenceOutOfRange, .truncatedInput].map
    fun e => e.code.toNat) = [0, 1, 2, 3, 4] ∧
  (∀ s : State, s.Inv → hostRead .outLen s = some s.outLen) ∧
  (∀ s : State, s.pc < 2 ^ s.aw → hostRead .srcAddr s = some s.pc) ∧
  (∀ s : State, hostRead .startAt s = none ∧ hostRead .startCur s = none) ∧
  (∀ (v : Nat) (s : State), hostWrite .status v s = .next s ∧ hostWrite .outLen v s = .next s ∧
    hostWrite .srcAddr v s = .next s) ∧
  (∀ s : State, (s.busy = true ↔ s.state = .reading) ∧ (s.done = true ↔ s.state = .done) ∧
    (s.failed = true ↔ s.state = .failed))

/-- The output buffer is visible to the host as a whole in `Done` and at no other time (R66): `OUT_RD(i)` returns
`out[i]` in `Done` below `out_len` and nothing in every other case (R36). R36 is decision D20, and so is what is said
of indices from `out_len` upward in `Done`. -/
def Obligations.OutReadPort : Prop :=
  ∀ (s : State) (i : BitVec 16),
    (s.state = .done → i.toNat < s.outLen → ∃ b, s.outByte i.toNat = some b ∧ s.outRd i = some b) ∧
    (¬ (s.state = .done ∧ i.toNat < s.outLen) → s.outRd i = none)

/-- Host reads have no side effect, in any state (R185, decision D11). -/
def Obligations.HostReadsChangeNothing : Prop :=
  ∀ (r : HostReg) (i : BitVec 16) (s : State), act (.hostRead r) s = .next s ∧ act (.outRead i) s = .next s

/-- Reset (R230, R39): in any state, `Idle`, no error, nothing produced, whatever AW-bit value `pc` takes; the source
side is the platform's and stays (decision D13; log entry 15). A read outstanding at the reset is not in the record
`reads`, the model's choice (log entry 25). -/
def Obligations.ResetEvent : Prop :=
  ∀ (pc' : Nat) (s : State), pc' < 2 ^ s.aw →
    act (.reset pc') s = .next { s with state := .idle, err := .none, out := [], pc := pc' } ∧
    ∀ t, act (.reset pc') s = .next t → hostRead .status t = some 0 ∧ hostRead .outLen t = some 0 ∧
      ∀ i, t.outRd i = none

/-- A pending source read changes nothing (R62 (c)); only in `Reading` is one pending. The move is the model's own
(log entry 16). The pending read is not in the record `reads`, the model's choice (log entry 25). -/
def Obligations.PendingReadChangesNothing : Prop :=
  ∀ s : State, (s.state = .reading → act .readPending s = .next s) ∧
    (s.state ≠ .reading → ∀ t, act .readPending s ≠ .next t)

/-! ## The source port -/

/-- One transaction at a time computes the step (R53, R62, R110): from a command boundary some positive number of
transactions reaches the next boundary, with exactly the state that `step` answers. The level below the step is the
model's own rendering of R38 (log entry 20). -/
def Obligations.SourcePortRefinesStep : Prop :=
  ∀ s t : State, step s = .next t →
    ∃ k, 1 ≤ k ∧ portTicks k (atBoundary s) = some (atBoundary t)

/-- Inside a command nothing of the machine has changed but the record of the transactions (R110), and a reset there
leaves what reset leaves at a command boundary, but for that record (R230). A transaction enters the record with its
answer, the model's choice (log entry 25). -/
def Obligations.CommandsAreAtomic : Prop :=
  ∀ (s r : State) (k pc' : Nat) (m : PortState), s.state = .reading → step s = .next r →
    (∀ j ≤ k, ∃ n, portTicks j (atBoundary s) = some n ∧ (j = 0 ∨ n.phase ≠ .boundary)) →
    portTicks k (atBoundary s) = some m →
    (∃ issued, m.machine = { s with reads := s.reads ++ issued } ∧ s.reads ++ issued <+: r.reads) ∧
    portReset pc' m = atBoundary { s with state := .idle, err := .none, out := [], pc := pc', reads := m.machine.reads }
end

