-- ==== Sys2Proof/Laws/Decode.lean ====
section
/-! SUPPORT. The header fields of encoded bytes, and the encoding of decoded bytes, from which the claims about
encoding follow. -/

namespace Sys2Proof

/-! ## Fields of what the encoder writes -/

theorem encodeShort_fields (code : BitVec 3) (n : Nat) (hc : code ≠ 7#3) (h : ShortLength n) :
    ∃ h0, encodeShort code n = [h0] ∧ h0 ≠ 0xFF#8 ∧ topField h0 = code ∧ shortLength h0 = n := by
  have key : ∀ code : BitVec 3, ∀ m : BitVec 5, code ≠ 7#3 →
      topField (code ++ m) = code ∧ shortLength (code ++ m) = m.toNat + 1 ∧ code ++ m ≠ 0xFF#8 := by decide
  obtain ⟨ht, hl, hf⟩ := key code (BitVec.ofNat 5 (n - 1)) hc
  refine ⟨_, rfl, hf, ht, hl.trans ?_⟩
  have h1 := h.1
  have h2 : n ≤ 32 := h.2
  rw [BitVec.toNat_ofNat]
  omega

/-- The ten length bits, cut in two and put together again. -/
theorem extract_append_extract (m : BitVec 10) : (m.extractLsb' 8 2 ++ m.extractLsb' 0 8).toNat = m.toNat := by
  have hlo : (m.extractLsb' 0 8).toNat < 2 ^ 8 := (m.extractLsb' 0 8).isLt
  rw [BitVec.toNat_append, ← Nat.shiftLeft_add_eq_or_of_lt hlo, BitVec.extractLsb'_toNat, BitVec.extractLsb'_toNat,
    Nat.shiftLeft_eq, Nat.shiftRight_eq_div_pow]
  have := m.isLt
  simp
  omega

theorem encodeExtended_fields (code : BitVec 3) (n : Nat) (hc : code ≠ 7#3) (h : ExtLength n) :
    ∃ h0 h1, encodeExtended code n = [h0, h1] ∧ h0 ≠ 0xFF#8 ∧ topField h0 = 7#3 ∧ extCode h0 = code ∧
      extLength h0 h1 = n := by
  have key : ∀ code : BitVec 3, ∀ hi : BitVec 2, code ≠ 7#3 →
      0b111#3 ++ code ++ hi ≠ 0xFF#8 ∧ topField (0b111#3 ++ code ++ hi) = 7#3 ∧
      extCode (0b111#3 ++ code ++ hi) = code ∧ (0b111#3 ++ code ++ hi).extractLsb' 0 2 = hi := by decide
  obtain ⟨hf, ht, hx, hlo⟩ := key code ((BitVec.ofNat 10 (n - 1)).extractLsb' 8 2) hc
  refine ⟨_, _, rfl, hf, ht, hx, ?_⟩
  unfold extLength
  rw [hlo, extract_append_extract]
  have h1 := h.1
  have h2 : n ≤ 1024 := h.2
  rw [BitVec.toNat_ofNat]
  omega

/-- The length of an extended header in plain arithmetic (spec/30_encoding.md R82). -/
theorem extLength_eq (h0 h1 : Byte) : extLength h0 h1 = (h0.extractLsb' 0 2).toNat * 256 + h1.toNat + 1 := by
  rw [extLength, BitVec.toNat_append, ← Nat.shiftLeft_add_eq_or_of_lt h1.isLt, Nat.shiftLeft_eq]

/-! ## What decodes -/

theorem decode_whole {h0 : Byte} {i : Instr} (h : classifyFirst h0 = .whole i) (rest : List Byte) :
    decode (h0 :: rest) = .ok (i, rest) := by simp [decode, h]

theorem decode_extended {h0 : Byte} (h : classifyFirst h0 = .extended) (h1 : Byte) (rest : List Byte) :
    decode (h0 :: h1 :: rest) = .ok (decodeExtended h0 h1, rest) := by simp [decode, h]

/-- A whole header is well formed, its encoding is the byte it was read from, and it is 1 byte long. -/
theorem classifyFirst_whole {h0 : Byte} {i : Instr} (h : classifyFirst h0 = .whole i) :
    i.wellFormed = true ∧ encode i = [h0] ∧ i.headerSize = 1 := by
  have key : ∀ h0 : Byte, (match classifyFirst h0 with
      | .whole i => i.wellFormed && encode i == [h0] && i.headerSize == 1
      | .extended => true) = true := by decide
  have := key h0
  rw [h] at this
  simpa [and_assoc] using this

/-- An extended header is well formed, its encoding is the two bytes it was read from, and it is 2 bytes long. -/
theorem decodeExtended_spec {h0 : Byte} (h : classifyFirst h0 = .extended) (h1 : Byte) :
    (decodeExtended h0 h1).wellFormed = true ∧ encode (decodeExtended h0 h1) = [h0, h1] ∧
      (decodeExtended h0 h1).headerSize = 2 := by
  have key : ∀ h0 : Byte, classifyFirst h0 = .extended →
      h0 = 0b111#3 ++ extCode h0 ++ h0.extractLsb' 0 2 ∧
        ((extCode h0).toNat < 7 ∨ (h0 = 0xFC#8 ∨ h0 = 0xFD#8 ∨ h0 = 0xFE#8)) := by decide
  obtain ⟨hfields, hk⟩ := key h0 h
  rcases hk with hk | rfl | rfl | rfl
  · have hlt : (h0.extractLsb' 0 2 ++ h1).toNat < 1024 := (h0.extractLsb' 0 2 ++ h1).isLt
    have hlen : ExtLength (extLength h0 h1) := by
      simp only [ExtLength, extLength, Config.lenMaxExt]
      omega
    have hbits : BitVec.ofNat 10 (extLength h0 h1 - 1) = h0.extractLsb' 0 2 ++ h1 := by
      rw [extLength, Nat.add_sub_cancel]
      exact BitVec.ofNat_toNat _ _
    have hhi : (h0.extractLsb' 0 2 ++ h1).extractLsb' 8 2 = h0.extractLsb' 0 2 := by
      generalize h0.extractLsb' 0 2 = a
      apply BitVec.eq_of_toNat_eq
      have ha := a.isLt
      have hb := h1.isLt
      rw [BitVec.extractLsb'_toNat, BitVec.toNat_append, ← Nat.shiftLeft_add_eq_or_of_lt hb, Nat.shiftLeft_eq,
        Nat.shiftRight_eq_div_pow]
      omega
    have hlo : (h0.extractLsb' 0 2 ++ h1).extractLsb' 0 8 = h1 := by
      generalize h0.extractLsb' 0 2 = a
      apply BitVec.eq_of_toNat_eq
      have hb := h1.isLt
      rw [BitVec.extractLsb'_toNat, BitVec.toNat_append, ← Nat.shiftLeft_add_eq_or_of_lt hb, Nat.shiftLeft_eq,
        Nat.shiftRight_eq_div_pow]
      omega
    have henc : ∀ (c : Nat) (code : BitVec 3), (extCode h0).toNat = c → code.toNat = c →
        encodeExtended code (extLength h0 h1) = [h0, h1] := by
      intro c code hc hcode
      have : code = extCode h0 := BitVec.eq_of_toNat_eq (by omega)
      subst this
      simp only [encodeExtended]
      rw [hbits, hhi, hlo, ← hfields]
    unfold decodeExtended
    generalize hc : (extCode h0).toNat = c at hk
    interval_cases c <;> exact ⟨decide_eq_true hlen, henc _ _ hc rfl, rfl⟩
  all_goals exact ⟨rfl, rfl, rfl⟩

/-- `END` is decoded from the byte 0xFF alone. -/
theorem classifyFirst_endMark {h0 : Byte} (h : classifyFirst h0 = .whole .endMark) : h0 = 0xFF#8 := by
  simpa [encode] using (classifyFirst_whole h).2.1.symm

/-- A well-formed data-bearing command appends at least one byte. -/
theorem Instr.one_le_appendCount {i : Instr} (hw : i.wellFormed = true) (hd : i.dataBearing = true) :
    1 ≤ i.appendCount := by
  cases i <;> simp [Instr.wellFormed, Instr.dataBearing, Instr.appendCount] at * <;> omega

end Sys2Proof
end

