-- ==== Sys2Proof/Laws/State.lean ====
section
/-! SUPPORT. One lemma per field per update of the state, each true by rfl, so that no later proof unfolds an update. -/

namespace Sys2Proof.Machine

/-- Several source transactions recorded at once. -/
def State.noteReads (s : State) (l : List Nat) : State := { s with reads := s.reads ++ l }

/-! ### noteRead: one source transaction recorded -/

@[simp] theorem State.noteRead_aw (s : State) (a : Nat) : (s.noteRead a).aw = s.aw := rfl
@[simp] theorem State.noteRead_src (s : State) (a : Nat) : (s.noteRead a).src = s.src := rfl
@[simp] theorem State.noteRead_srcCursor (s : State) (a : Nat) : (s.noteRead a).srcCursor = s.srcCursor := rfl
@[simp] theorem State.noteRead_state (s : State) (a : Nat) : (s.noteRead a).state = s.state := rfl
@[simp] theorem State.noteRead_pc (s : State) (a : Nat) : (s.noteRead a).pc = s.pc := rfl
@[simp] theorem State.noteRead_err (s : State) (a : Nat) : (s.noteRead a).err = s.err := rfl
@[simp] theorem State.noteRead_out (s : State) (a : Nat) : (s.noteRead a).out = s.out := rfl
@[simp] theorem State.noteRead_reads (s : State) (a : Nat) : (s.noteRead a).reads = s.reads ++ [a] := rfl

/-! ### raise: failure entry -/

@[simp] theorem State.raise_aw (s : State) (e : ErrKind) : (s.raise e).aw = s.aw := rfl
@[simp] theorem State.raise_src (s : State) (e : ErrKind) : (s.raise e).src = s.src := rfl
@[simp] theorem State.raise_srcCursor (s : State) (e : ErrKind) : (s.raise e).srcCursor = s.srcCursor := rfl
@[simp] theorem State.raise_state (s : State) (e : ErrKind) : (s.raise e).state = .failed := rfl
@[simp] theorem State.raise_pc (s : State) (e : ErrKind) : (s.raise e).pc = s.pc := rfl
@[simp] theorem State.raise_err (s : State) (e : ErrKind) : (s.raise e).err = e := rfl
@[simp] theorem State.raise_out (s : State) (e : ErrKind) : (s.raise e).out = [] := rfl
@[simp] theorem State.raise_reads (s : State) (e : ErrKind) : (s.raise e).reads = s.reads := rfl

/-! ### append: bytes appended -/

@[simp] theorem State.append_aw (s : State) (v : List Byte) : (s.append v).aw = s.aw := rfl
@[simp] theorem State.append_src (s : State) (v : List Byte) : (s.append v).src = s.src := rfl
@[simp] theorem State.append_srcCursor (s : State) (v : List Byte) : (s.append v).srcCursor = s.srcCursor := rfl
@[simp] theorem State.append_state (s : State) (v : List Byte) : (s.append v).state = s.state := rfl
@[simp] theorem State.append_pc (s : State) (v : List Byte) : (s.append v).pc = s.pc := rfl
@[simp] theorem State.append_err (s : State) (v : List Byte) : (s.append v).err = s.err := rfl
@[simp] theorem State.append_out (s : State) (v : List Byte) : (s.append v).out = s.out ++ v := rfl
@[simp] theorem State.append_reads (s : State) (v : List Byte) : (s.append v).reads = s.reads := rfl

/-! ### setPc: `pc` written -/

@[simp] theorem State.setPc_aw (s : State) (a : Nat) : (s.setPc a).aw = s.aw := rfl
@[simp] theorem State.setPc_src (s : State) (a : Nat) : (s.setPc a).src = s.src := rfl
@[simp] theorem State.setPc_srcCursor (s : State) (a : Nat) : (s.setPc a).srcCursor = s.srcCursor := rfl
@[simp] theorem State.setPc_state (s : State) (a : Nat) : (s.setPc a).state = s.state := rfl
@[simp] theorem State.setPc_pc (s : State) (a : Nat) : (s.setPc a).pc = a := rfl
@[simp] theorem State.setPc_err (s : State) (a : Nat) : (s.setPc a).err = s.err := rfl
@[simp] theorem State.setPc_out (s : State) (a : Nat) : (s.setPc a).out = s.out := rfl
@[simp] theorem State.setPc_reads (s : State) (a : Nat) : (s.setPc a).reads = s.reads := rfl

/-! ### finish: `END` -/

@[simp] theorem State.finish_aw (s : State) : s.finish.aw = s.aw := rfl
@[simp] theorem State.finish_src (s : State) : s.finish.src = s.src := rfl
@[simp] theorem State.finish_srcCursor (s : State) : s.finish.srcCursor = s.srcCursor := rfl
@[simp] theorem State.finish_state (s : State) : s.finish.state = .done := rfl
@[simp] theorem State.finish_pc (s : State) : s.finish.pc = s.pc + 1 := rfl
@[simp] theorem State.finish_err (s : State) : s.finish.err = s.err := rfl
@[simp] theorem State.finish_out (s : State) : s.finish.out = s.out := rfl
@[simp] theorem State.finish_reads (s : State) : s.finish.reads = s.reads := rfl

/-! ### beginDecode: an accepted start -/

@[simp] theorem State.beginDecode_aw (s : State) (a : Nat) : (s.beginDecode a).aw = s.aw := rfl
@[simp] theorem State.beginDecode_src (s : State) (a : Nat) : (s.beginDecode a).src = s.src := rfl
@[simp] theorem State.beginDecode_srcCursor (s : State) (a : Nat) : (s.beginDecode a).srcCursor = s.srcCursor := rfl
@[simp] theorem State.beginDecode_state (s : State) (a : Nat) : (s.beginDecode a).state = .reading := rfl
@[simp] theorem State.beginDecode_pc (s : State) (a : Nat) : (s.beginDecode a).pc = a := rfl
@[simp] theorem State.beginDecode_err (s : State) (a : Nat) : (s.beginDecode a).err = .none := rfl
@[simp] theorem State.beginDecode_out (s : State) (a : Nat) : (s.beginDecode a).out = [] := rfl
@[simp] theorem State.beginDecode_reads (s : State) (a : Nat) : (s.beginDecode a).reads = [] := rfl

/-! ### failedAfter: a failed step -/

@[simp] theorem State.failedAfter_aw (s : State) (e : ErrKind) (l : List Nat) : (s.failedAfter e l).aw = s.aw := rfl
@[simp] theorem State.failedAfter_src (s : State) (e : ErrKind) (l : List Nat) : (s.failedAfter e l).src = s.src := rfl
@[simp] theorem State.failedAfter_srcCursor (s : State) (e : ErrKind) (l : List Nat) : (s.failedAfter e l).srcCursor = s.srcCursor := rfl
@[simp] theorem State.failedAfter_state (s : State) (e : ErrKind) (l : List Nat) : (s.failedAfter e l).state = .failed := rfl
@[simp] theorem State.failedAfter_pc (s : State) (e : ErrKind) (l : List Nat) : (s.failedAfter e l).pc = s.pc := rfl
@[simp] theorem State.failedAfter_err (s : State) (e : ErrKind) (l : List Nat) : (s.failedAfter e l).err = e := rfl
@[simp] theorem State.failedAfter_out (s : State) (e : ErrKind) (l : List Nat) : (s.failedAfter e l).out = [] := rfl
@[simp] theorem State.failedAfter_reads (s : State) (e : ErrKind) (l : List Nat) : (s.failedAfter e l).reads = s.reads ++ l := rfl

/-! ### noteReads: several source transactions recorded -/

@[simp] theorem State.noteReads_aw (s : State) (l : List Nat) : (s.noteReads l).aw = s.aw := rfl
@[simp] theorem State.noteReads_src (s : State) (l : List Nat) : (s.noteReads l).src = s.src := rfl
@[simp] theorem State.noteReads_srcCursor (s : State) (l : List Nat) : (s.noteReads l).srcCursor = s.srcCursor := rfl
@[simp] theorem State.noteReads_state (s : State) (l : List Nat) : (s.noteReads l).state = s.state := rfl
@[simp] theorem State.noteReads_pc (s : State) (l : List Nat) : (s.noteReads l).pc = s.pc := rfl
@[simp] theorem State.noteReads_err (s : State) (l : List Nat) : (s.noteReads l).err = s.err := rfl
@[simp] theorem State.noteReads_out (s : State) (l : List Nat) : (s.noteReads l).out = s.out := rfl
@[simp] theorem State.noteReads_reads (s : State) (l : List Nat) : (s.noteReads l).reads = s.reads ++ l := rfl

/-! ### The state after reset -/

@[simp] theorem State.resetWith_aw (aw : Nat) (src : List Host.Cell) (c p : Nat) :
    (State.resetWith aw src c p).aw = aw := rfl
@[simp] theorem State.resetWith_src (aw : Nat) (src : List Host.Cell) (c p : Nat) :
    (State.resetWith aw src c p).src = src := rfl
@[simp] theorem State.resetWith_srcCursor (aw : Nat) (src : List Host.Cell) (c p : Nat) :
    (State.resetWith aw src c p).srcCursor = c := rfl
@[simp] theorem State.resetWith_state (aw : Nat) (src : List Host.Cell) (c p : Nat) :
    (State.resetWith aw src c p).state = .idle := rfl
@[simp] theorem State.resetWith_pc (aw : Nat) (src : List Host.Cell) (c p : Nat) :
    (State.resetWith aw src c p).pc = p := rfl
@[simp] theorem State.resetWith_err (aw : Nat) (src : List Host.Cell) (c p : Nat) :
    (State.resetWith aw src c p).err = .none := rfl
@[simp] theorem State.resetWith_out (aw : Nat) (src : List Host.Cell) (c p : Nat) :
    (State.resetWith aw src c p).out = [] := rfl
@[simp] theorem State.resetWith_reads (aw : Nat) (src : List Host.Cell) (c p : Nat) :
    (State.resetWith aw src c p).reads = [] := rfl

end Sys2Proof.Machine
end

