-- ==== Sys2Proof/Laws/Memory.lean ====
section
/-! SUPPORT. The source space: reading one byte, the byte transaction, and that what writes a source content keeps its
canonical form. -/

namespace Sys2Proof.Machine

@[simp] theorem Memory.lookup_nil (a : Nat) : Memory.lookup [] a = none := rfl

theorem Memory.lookup_cons (c : Host.Cell) (cs : List Host.Cell) (a : Nat) :
    Memory.lookup (c :: cs) a = if c.1 = a then some c.2 else Memory.lookup cs a := by
  by_cases h : c.1 = a
  · simp [Memory.lookup, h]
  · have hb : Nat.beq c.1 a = false := by
      rw [Bool.eq_false_iff]
      exact fun hb => h (Nat.eq_of_beq_eq_true hb)
    simp [Memory.lookup, h, hb]

/-- A listed byte is found at its own address only. -/
theorem Memory.lookup_eq_some {src : List Host.Cell} {a : Nat} {b : Byte} (h : Memory.lookup src a = some b) :
    (a, b) ∈ src := by
  induction src with
  | nil => simp at h
  | cons c cs ih =>
    rw [Memory.lookup_cons] at h
    split at h
    · rename_i hc
      obtain ⟨k, v⟩ := c
      simp_all
    · exact List.mem_cons_of_mem _ (ih h)

/-- In a content of canonical form, a listed cell is what its address reads as. -/
theorem Memory.lookup_of_mem {aw : Nat} {src : List Host.Cell} (hwf : Memory.wf aw src) {c : Host.Cell}
    (hc : c ∈ src) : Memory.lookup src c.1 = some c.2 := by
  induction src with
  | nil => simp at hc
  | cons d ds ih =>
    have hp := List.pairwise_cons.mp hwf.1
    rw [Memory.lookup_cons]
    rcases List.mem_cons.mp hc with rfl | hm
    · simp
    · have hlt := hp.1 c hm
      rw [if_neg (by omega)]
      exact ih ⟨hp.2, fun x hx => hwf.2 x (List.mem_cons_of_mem _ hx)⟩ hm

@[simp] theorem Memory.wf_nil (aw : Nat) : Memory.wf aw [] := ⟨List.Pairwise.nil, by simp⟩

theorem Memory.mem_cellsFrom {a : Nat} {bs : List Byte} {c : Host.Cell} (h : c ∈ Memory.cellsFrom a bs) :
    a ≤ c.1 ∧ c.1 < a + bs.length := by
  induction bs generalizing a with
  | nil => simp [Memory.cellsFrom] at h
  | cons b bs ih =>
    simp only [Memory.cellsFrom, List.mem_cons] at h
    rcases h with rfl | h
    · simp
    · have := ih h
      simp only [List.length_cons]
      omega

theorem Memory.cellsFrom_rising (a : Nat) (bs : List Byte) :
    (Memory.cellsFrom a bs).Pairwise (fun c d => c.1 < d.1) := by
  induction bs generalizing a with
  | nil => exact List.Pairwise.nil
  | cons b bs ih =>
    refine List.pairwise_cons.mpr ⟨fun c hc => ?_, ih (a + 1)⟩
    have := Memory.mem_cellsFrom hc
    show a < c.1
    omega

/-- Laying bytes over a source content keeps the canonical form, as long as they end inside the source space. -/
theorem Memory.overlay_wf {aw : Nat} {src : List Host.Cell} (hwf : Memory.wf aw src) (base : Nat) (bytes : List Byte)
    (hfit : bytes ≠ [] → base + bytes.length ≤ 2 ^ aw) : Memory.wf aw (Memory.overlay src base bytes) := by
  constructor
  · unfold Memory.overlay
    refine List.pairwise_append.mpr ⟨List.pairwise_append.mpr ⟨hwf.1.filter _, Memory.cellsFrom_rising _ _, ?_⟩,
      hwf.1.filter _, ?_⟩
    · intro c hc d hd
      have h1 := (List.mem_filter.mp hc).2
      have h2 := Memory.mem_cellsFrom hd
      simp only [decide_eq_true_eq] at h1
      omega
    · intro c hc d hd
      have h1 := (List.mem_filter.mp hd).2
      simp only [decide_eq_true_eq] at h1
      rcases List.mem_append.mp hc with hc | hc
      · have h2 := (List.mem_filter.mp hc).2
        simp only [decide_eq_true_eq] at h2
        omega
      · have h2 := Memory.mem_cellsFrom hc
        omega
  · intro c hc
    unfold Memory.overlay at hc
    rcases List.mem_append.mp hc with hc | hc
    · rcases List.mem_append.mp hc with hc | hc
      · exact hwf.2 c (List.mem_filter.mp hc).1
      · have h1 := Memory.mem_cellsFrom hc
        have h2 : bytes ≠ [] := by
          rintro rfl
          simp [Memory.cellsFrom] at hc
        have := hfit h2
        omega
    · exact hwf.2 c (List.mem_filter.mp hc).1

theorem Memory.lookup_append (xs ys : List Host.Cell) (a : Nat) :
    Memory.lookup (xs ++ ys) a = (Memory.lookup xs a).or (Memory.lookup ys a) := by
  induction xs with
  | nil => simp
  | cons c cs ih =>
    rw [List.cons_append, Memory.lookup_cons, Memory.lookup_cons, ih]
    split <;> simp

theorem Memory.lookup_eq_none {src : List Host.Cell} {a : Nat} (h : ∀ c ∈ src, c.1 ≠ a) :
    Memory.lookup src a = none := by
  induction src with
  | nil => rfl
  | cons c cs ih =>
    rw [Memory.lookup_cons, if_neg (h c List.mem_cons_self)]
    exact ih fun d hd => h d (List.mem_cons_of_mem _ hd)

theorem Memory.lookup_filter {src : List Host.Cell} {p : Nat → Bool} (a : Nat) (h : p a = true) :
    Memory.lookup (src.filter fun c => p c.1) a = Memory.lookup src a := by
  induction src with
  | nil => rfl
  | cons c cs ih =>
    rw [List.filter_cons, Memory.lookup_cons]
    by_cases hc : c.1 = a
    · rw [if_pos (by simp [hc, h]), Memory.lookup_cons, ih]
    · rw [if_neg hc]
      split
      · rw [Memory.lookup_cons, if_neg hc, ih]
      · exact ih

theorem Memory.lookup_cellsFrom (base : Nat) (bytes : List Byte) (k : Nat) :
    Memory.lookup (Memory.cellsFrom base bytes) (base + k) = bytes[k]? := by
  induction bytes generalizing base k with
  | nil => simp [Memory.cellsFrom]
  | cons b bs ih =>
    rw [Memory.cellsFrom, Memory.lookup_cons]
    cases k with
    | zero => simp
    | succ k =>
      rw [if_neg (by omega), show base + (k + 1) = (base + 1) + k by omega, ih]
      simp

/-- A byte laid over the content is what its address then reads as. -/
theorem Memory.lookup_overlay_inside (src : List Host.Cell) (base : Nat) (bytes : List Byte) (k : Nat)
    (hk : k < bytes.length) : Memory.lookup (Memory.overlay src base bytes) (base + k) = bytes[k]? := by
  unfold Memory.overlay
  rw [Memory.lookup_append, Memory.lookup_append, Memory.lookup_cellsFrom,
    Memory.lookup_eq_none (src := src.filter _)]
  · simp [List.getElem?_eq_getElem hk]
  · intro c hc
    have h1 := (List.mem_filter.mp hc).2
    simp only [decide_eq_true_eq] at h1
    omega

/-- Outside the bytes laid over it the content reads as before. -/
theorem Memory.lookup_overlay_outside (src : List Host.Cell) (base : Nat) (bytes : List Byte) (a : Nat)
    (ha : a < base ∨ base + bytes.length ≤ a) :
    Memory.lookup (Memory.overlay src base bytes) a = Memory.lookup src a := by
  unfold Memory.overlay
  rw [Memory.lookup_append, Memory.lookup_append,
    Memory.lookup_eq_none (src := Memory.cellsFrom base bytes) (fun c hc => by
      have := Memory.mem_cellsFrom hc
      omega)]
  rcases ha with ha | ha
  · rw [Memory.lookup_filter (p := fun k => decide (k < base)) a (by simpa using ha),
      Memory.lookup_eq_none (src := src.filter fun c => decide (base + bytes.length ≤ c.1)) (fun c hc => by
        have h1 := (List.mem_filter.mp hc).2
        simp only [decide_eq_true_eq] at h1
        omega)]
    simp
  · rw [Memory.lookup_filter (p := fun k => decide (base + bytes.length ≤ k)) a (by simpa using ha),
      Memory.lookup_eq_none (src := src.filter fun c => decide (c.1 < base)) (fun c hc => by
        have h1 := (List.mem_filter.mp hc).2
        simp only [decide_eq_true_eq] at h1
        omega)]
    simp

/-- Beyond the top of the source space every read is exhausted (spec/20_memory.md R57). -/
theorem State.srcByte_beyond (s : State) {a : Nat} (h : 2 ^ s.aw ≤ a) : s.srcByte a = none := by
  simp [State.srcByte, Nat.not_lt.mpr h]

theorem State.srcByte_congr {s t : State} (haw : t.aw = s.aw) (hsrc : t.src = s.src) (a : Nat) :
    t.srcByte a = s.srcByte a := by
  simp [State.srcByte, haw, hsrc]

/-- The byte transaction: its answer, and which transactions it records. -/
theorem State.transact_eq (s : State) (a : Nat) :
    s.transact a = (s.noteReads (s.issuedTo a 0), s.srcByte a) := by
  by_cases h : a < 2 ^ s.aw
  · simp [State.transact, State.srcByte, State.issuedTo, h, State.noteRead, State.noteReads]
  · simp [State.transact, State.srcByte, State.issuedTo, h, State.noteReads]

theorem State.lt_top_of_srcByte {s : State} {a : Nat} {b : Byte} (h : s.srcByte a = some b) : a < 2 ^ s.aw := by
  by_contra hn
  simp [State.srcByte, hn] at h

end Sys2Proof.Machine
end

