-- ==== Sys2Proof/Laws/Ops.lean ====
section
/-! SUPPORT. One lemma per shared operation, saying once everything it can do: the reads of the source, the ceiling
check, the ranges of the output buffer. -/

namespace Sys2Proof.Machine

/-! ## Recorded transactions -/

@[simp] theorem State.noteReads_nil (s : State) : s.noteReads [] = s := by simp [State.noteReads]

@[simp] theorem State.noteReads_noteReads (s : State) (l m : List Nat) :
    (s.noteReads l).noteReads m = s.noteReads (l ++ m) := by simp [State.noteReads]

theorem State.noteRead_eq (s : State) (a : Nat) : s.noteRead a = s.noteReads [a] := rfl

@[simp] theorem State.noteReads_srcByte (s : State) (l : List Nat) (a : Nat) :
    (s.noteReads l).srcByte a = s.srcByte a := rfl

@[simp] theorem State.noteReads_outByte (s : State) (l : List Nat) (i : Nat) :
    (s.noteReads l).outByte i = s.outByte i := rfl

@[simp] theorem State.noteReads_outLen (s : State) (l : List Nat) : (s.noteReads l).outLen = s.outLen := rfl

@[simp] theorem State.noteReads_issuedTo (s : State) (l : List Nat) (a k : Nat) :
    (s.noteReads l).issuedTo a k = s.issuedTo a k := rfl

@[simp] theorem State.noteReads_raise (s : State) (l : List Nat) (e : ErrKind) :
    (s.noteReads l).raise e = s.failedAfter e l := rfl

theorem State.raise_eq (s : State) (e : ErrKind) : s.raise e = s.failedAfter e [] := by
  simp [State.raise, State.failedAfter]

@[simp] theorem State.noteReads_failedAfter (s : State) (l m : List Nat) (e : ErrKind) :
    (s.noteReads l).failedAfter e m = s.failedAfter e (l ++ m) := by
  simp [State.failedAfter, State.noteReads]

@[simp] theorem raiseErr_noteReads (s : State) (l : List Nat) (e : ErrKind) :
    raiseErr e (s.noteReads l) = .next (s.failedAfter e l) := rfl

/-! ## Reading the source -/

/-- The bytes that exist from `a` upward, `n` addresses. -/
def State.bytesAt (s : State) (a n : Nat) : List Byte := (List.range n).filterMap fun j => s.srcByte (a + j)

@[simp] theorem State.bytesAt_zero (s : State) (a : Nat) : s.bytesAt a 0 = [] := rfl

theorem State.bytesAt_succ (s : State) (a n : Nat) {b : Byte} (hb : s.srcByte a = some b) :
    s.bytesAt a (n + 1) = b :: s.bytesAt (a + 1) n := by
  have hf : (fun j => s.srcByte (a + 1 + j)) = (fun j => s.srcByte (a + j)) ∘ Nat.succ := by
    funext j
    show _ = s.srcByte (a + (j + 1))
    rw [Nat.add_assoc, Nat.add_comm 1 j]
  unfold State.bytesAt
  rw [List.range_succ_eq_map, List.filterMap_cons, hf]
  simp [hb, List.filterMap_map]

theorem State.Present.head {s : State} {a n : Nat} (h : s.Present a (n + 1)) : ∃ b, s.srcByte a = some b := by
  simpa [Option.isSome_iff_exists] using h 0 (Nat.succ_pos n)

theorem State.Present.tail {s : State} {a n : Nat} (h : s.Present a (n + 1)) : s.Present (a + 1) n := fun j hj => by
  have := h (j + 1) (by omega)
  rwa [show a + (j + 1) = a + 1 + j by omega] at this

theorem State.bytesAt_length {s : State} {a n : Nat} (h : s.Present a n) : (s.bytesAt a n).length = n := by
  induction n generalizing a with
  | zero => rfl
  | succ n ih =>
    obtain ⟨b, hb⟩ := h.head
    rw [s.bytesAt_succ a n hb, List.length_cons, ih h.tail]

theorem State.bytesAt_getElem? {s : State} {a n : Nat} (h : s.Present a n) {k : Nat} (hk : k < n) :
    (s.bytesAt a n)[k]? = s.srcByte (a + k) := by
  induction n generalizing a k with
  | zero => omega
  | succ n ih =>
    obtain ⟨b, hb⟩ := h.head
    rw [s.bytesAt_succ a n hb]
    cases k with
    | zero => simp [hb]
    | succ k =>
      rw [List.getElem?_cons_succ, ih h.tail (by omega)]
      congr 1
      omega

/-- Going upward, either all `n` bytes exist or there is a first one that is exhausted. -/
theorem State.present_or_firstMissing (s : State) (a n : Nat) :
    s.Present a n ∨ ∃ k < n, s.FirstMissing a k := by
  induction n with
  | zero => exact .inl fun j hj => by omega
  | succ n ih =>
    rcases ih with h | ⟨k, hk, hm⟩
    · cases hb : s.srcByte (a + n) with
      | none => exact .inr ⟨n, by omega, h, hb⟩
      | some b =>
        refine .inl fun j hj => ?_
        rcases Nat.lt_or_eq_of_le (Nat.le_of_lt_succ hj) with hlt | rfl
        · exact h j hlt
        · simp [hb]
    · exact .inr ⟨k, by omega, hm⟩

theorem readU8_some {s : State} {a : Nat} {b : Byte} (h : s.srcByte a = some b)
    (rest : Byte → State → StepOutcome) : readU8 s a rest = rest b (s.noteReads [a]) := by
  have hlt := State.lt_top_of_srcByte h
  rw [readU8, State.transact_eq, h]
  simp [State.issuedTo, hlt]

theorem readU8_none {s : State} {a : Nat} (h : s.srcByte a = none) (rest : Byte → State → StepOutcome) :
    readU8 s a rest = .next (s.failedAfter .truncatedInput (s.issuedTo a 0)) := by
  rw [readU8, State.transact_eq, h]
  rfl

/-- `MemRead` where every byte exists: the bytes in order, one transaction for each. -/
theorem readBytes_present {s : State} {a n : Nat} (h : s.Present a n) (rest : List Byte → State → StepOutcome) :
    readBytes s a n rest = rest (s.bytesAt a n) (s.noteReads (List.range' a n)) := by
  induction n generalizing s a rest with
  | zero => simp [readBytes]
  | succ n ih =>
    obtain ⟨b, hb⟩ := h.head
    have ht : (s.noteReads [a]).Present (a + 1) n := h.tail
    rw [readBytes, readU8_some hb, ih ht, s.bytesAt_succ a n hb, State.noteReads_noteReads]
    rfl

theorem State.FirstMissing.tail {s : State} {a k : Nat} (h : s.FirstMissing a (k + 1)) : s.FirstMissing (a + 1) k :=
  ⟨h.1.tail, by rw [show a + 1 + k = a + (k + 1) by omega]; exact h.2⟩

theorem State.issuedTo_succ (s : State) (a k : Nat) : s.issuedTo a (k + 1) = a :: s.issuedTo (a + 1) k := by
  unfold State.issuedTo
  rw [show a + 1 + k = a + (k + 1) by omega]
  split <;> simp [List.range'_succ]

/-- `MemRead` where byte `k` is the first exhausted one: failure entry, and the transactions up to that one. -/
theorem readBytes_missing {s : State} {a n k : Nat} (hk : k < n) (h : s.FirstMissing a k)
    (rest : List Byte → State → StepOutcome) :
    readBytes s a n rest = .next (s.failedAfter .truncatedInput (s.issuedTo a k)) := by
  induction n generalizing s a k rest with
  | zero => omega
  | succ n ih =>
    cases k with
    | zero =>
      have h0 : s.srcByte a = none := h.2
      rw [readBytes, readU8_none h0]
    | succ k =>
      obtain ⟨b, hb⟩ := h.1.head
      have ht : (s.noteReads [a]).FirstMissing (a + 1) k := h.tail
      rw [readBytes, readU8_some hb, ih (by omega) ht, State.issuedTo_succ]
      simp

/-- `MemRead(a, 1)` and `MemRead(a, 2)` are `MemRead(a, n)`. -/
theorem readU8_eq_readBytes (s : State) (a : Nat) (rest : Byte → State → StepOutcome)
    (rest' : List Byte → State → StepOutcome) (h : ∀ b l, rest b (s.noteReads l) = rest' [b] (s.noteReads l)) :
    readU8 s a rest = readBytes s a 1 rest' := by
  cases hb : s.srcByte a with
  | none => rw [readU8_none hb, readBytes, readU8_none hb]
  | some b => rw [readU8_some hb, readBytes, readU8_some hb, readBytes, h]

theorem readPair_eq_readBytes (s : State) (a : Nat) (rest : Byte → Byte → State → StepOutcome)
    (rest' : List Byte → State → StepOutcome)
    (h : ∀ b0 b1 l, rest b0 b1 (s.noteReads l) = rest' [b0, b1] (s.noteReads l)) :
    readPair s a rest = readBytes s a 2 rest' := by
  cases hb : s.srcByte a with
  | none => rw [readPair, readU8_none hb, readBytes, readU8_none hb]
  | some b0 =>
    rw [readPair, readU8_some hb, readBytes, readU8_some hb]
    exact readU8_eq_readBytes _ _ _ _ fun b1 l => by
      simpa using h b0 b1 ([a] ++ l)

theorem readBytes_congr (s : State) (a n : Nat) (rest rest' : List Byte → State → StepOutcome)
    (h : ∀ v l, v.length = n → rest v (s.noteReads l) = rest' v (s.noteReads l)) :
    readBytes s a n rest = readBytes s a n rest' := by
  rcases s.present_or_firstMissing a n with hp | ⟨k, hk, hm⟩
  · rw [readBytes_present hp, readBytes_present hp, h _ _ (State.bytesAt_length hp)]
  · rw [readBytes_missing hk hm, readBytes_missing hk hm]

/-! ## The ceiling check -/

theorem checkCeiling_over {n : Nat} {s : State} (h : Config.outMax < s.outLen + n) (rest : StepOutcome) :
    checkCeiling n s rest = .next (s.failedAfter .outputOverflow []) := by
  have h' : s.overflows n = true := decide_eq_true h
  rw [checkCeiling, if_pos h', raiseErr, State.raise_eq]

theorem checkCeiling_fits {n : Nat} {s : State} (h : s.outLen + n ≤ Config.outMax) (rest : StepOutcome) :
    checkCeiling n s rest = rest := by
  have h' : ¬ s.overflows n = true := by simpa [State.overflows] using h
  rw [checkCeiling, if_neg h']

/-! ## Ranges of the output buffer -/

/-- A `filterMap` over indices that all have a value keeps every index. -/
theorem filterMap_range_length {f : Nat → Option Byte} {n : Nat} (h : ∀ i < n, (f i).isSome) :
    ((List.range n).filterMap f).length = n := by
  induction n with
  | zero => rfl
  | succ n ih =>
    obtain ⟨b, hb⟩ := Option.isSome_iff_exists.mp (h n (by omega))
    rw [List.range_succ, List.filterMap_append, List.length_append, ih fun i hi => h i (by omega)]
    simp [hb]

theorem filterMap_range_getElem? {f : Nat → Option Byte} {n : Nat} (h : ∀ i < n, (f i).isSome) {k : Nat}
    (hk : k < n) : ((List.range n).filterMap f)[k]? = f k := by
  induction n with
  | zero => omega
  | succ n ih =>
    have hlen := filterMap_range_length (f := f) (n := n) fun i hi => h i (by omega)
    rw [List.range_succ, List.filterMap_append]
    rcases Nat.lt_or_eq_of_le (Nat.le_of_lt_succ hk) with hlt | rfl
    · rw [List.getElem?_append_left (by omega)]
      exact ih (fun i hi => h i (by omega)) hlt
    · obtain ⟨b, hb⟩ := Option.isSome_iff_exists.mp (h k (by omega))
      rw [List.getElem?_append_right (by omega), hlen]
      simp [hb]

theorem State.outByte_isSome {s : State} {i : Nat} : (s.outByte i).isSome ↔ i < s.outLen := by
  simp [State.outByte]

theorem forwardRange_isSome {s : State} {off n : Nat} (h : off + n ≤ s.outLen) :
    ∀ i < n, (s.outByte (off + i)).isSome := fun i hi => State.outByte_isSome.mpr (by omega)

theorem backwardRange_isSome {s : State} {off n : Nat} (h : off < s.outLen) :
    ∀ i < n, (s.outByte (off - i)).isSome := fun i _ => State.outByte_isSome.mpr (by omega)

theorem forwardRange_length {s : State} {off n : Nat} (h : off + n ≤ s.outLen) :
    (forwardRange s off n).length = n := filterMap_range_length (forwardRange_isSome h)

theorem forwardRange_getElem? {s : State} {off n k : Nat} (h : off + n ≤ s.outLen) (hk : k < n) :
    (forwardRange s off n)[k]? = s.outByte (off + k) := filterMap_range_getElem? (forwardRange_isSome h) hk

theorem backwardRange_length {s : State} {off n : Nat} (h : off < s.outLen) :
    (backwardRange s off n).length = n := filterMap_range_length (backwardRange_isSome h)

theorem backwardRange_getElem? {s : State} {off n k : Nat} (h : off < s.outLen) (hk : k < n) :
    (backwardRange s off n)[k]? = s.outByte (off - k) := filterMap_range_getElem? (backwardRange_isSome h) hk

/-! ## Runs -/

@[simp] theorem byteRun_length (v : Byte) (n : Nat) : (byteRun v n).length = n := by simp [byteRun]

@[simp] theorem pairRun_length (v0 v1 : Byte) (n : Nat) : (pairRun v0 v1 n).length = 2 * n := by
  simp [pairRun, Nat.mul_comm]

@[simp] theorem incrementRun_length (v : Byte) (n : Nat) : (incrementRun v n).length = n := by simp [incrementRun]

theorem byteRun_getElem? {v : Byte} {n k : Nat} (hk : k < n) : (byteRun v n)[k]? = some v := by
  simp [byteRun, hk]

theorem pairRun_getElem? {v0 v1 : Byte} {n k : Nat} (hk : k < 2 * n) :
    (pairRun v0 v1 n)[k]? = some (if k % 2 = 0 then v0 else v1) := by
  induction n generalizing k with
  | zero => omega
  | succ n ih =>
    rw [pairRun, List.replicate_succ, List.flatten_cons]
    match k with
    | 0 => rfl
    | 1 => rfl
    | k + 2 =>
      have hmod : (k + 2) % 2 = k % 2 := by omega
      rw [hmod]
      exact ih (by omega)

theorem incrementRun_getElem? {v : Byte} {n k : Nat} (hk : k < n) :
    (incrementRun v n)[k]? = some (BitVec.ofNat 8 ((v.toNat + k) % 256)) := by
  simp [incrementRun, hk]

end Sys2Proof.Machine
end

