-- ==== Sys2Proof/Laws/Exec.lean ====
section
/-! SUPPORT. What `exec` can do, said once: every data-bearing command is the ceiling check, the payload reads and
`portFinish`; from that its three outcomes follow. -/

namespace Sys2Proof.Machine

/-- The four parts of a data-bearing command (spec/40_interpreter_and_header.md R111 steps (5) and (6)), told apart
by the instruction's own sizes. -/
def dataCommand (i : Instr) (s : State) : StepOutcome :=
  checkCeiling i.appendCount s <|
    readBytes s (s.pc + i.headerSize) i.payloadSize fun got s' => .next (portFinish i got s')

theorem beNumber_pair (b0 b1 : Byte) : beNumber [b0, b1] = be16 b0 b1 := by simp [beNumber, be16]

/-- Each of the fourteen data-bearing meanings is `dataCommand`. -/
theorem exec_eq_dataCommand {i : Instr} (h : i.dataBearing = true) (s : State) : exec i s = dataCommand i s := by
  have pcs : ∀ (l : List Nat), (s.noteReads l).pc = s.pc := fun _ => rfl
  cases i with
  | lit n | litX n =>
    refine congrArg (checkCeiling _ s) (readBytes_congr _ _ _ _ _ fun v l hv => ?_)
    simp [complete, portFinish, produce, State.append, State.setPc, Instr.totalSize, Instr.headerSize,
      Instr.payloadSize, Nat.add_assoc]
  | runb n | runbX n =>
    refine congrArg (checkCeiling _ s) (readU8_eq_readBytes _ _ _ _ fun b l => ?_)
    simp [complete, portFinish, produce, State.append, State.setPc, Instr.totalSize, Instr.headerSize,
      Instr.payloadSize, byteRun, Nat.add_assoc]
  | runi n | runiX n =>
    refine congrArg (checkCeiling _ s) (readU8_eq_readBytes _ _ _ _ fun b l => ?_)
    simp [complete, portFinish, produce, State.append, State.setPc, Instr.totalSize, Instr.headerSize,
      Instr.payloadSize, Nat.add_assoc]
  | runw n | runwX n =>
    refine congrArg (checkCeiling _ s) (readPair_eq_readBytes _ _ _ _ fun b0 b1 l => ?_)
    simp [complete, portFinish, produce, State.append, State.setPc, Instr.totalSize, Instr.headerSize,
      Instr.payloadSize, pairRun, Nat.add_assoc]
  | bref n | brefX n | mref n | mrefX n =>
    refine congrArg (checkCeiling _ s) (readPair_eq_readBytes _ _ _ _ fun b0 b1 l => ?_)
    by_cases hr : be16 b0 b1 + n ≤ s.outLen
    · simp [complete, portFinish, produce, forwardInRange, beNumber_pair, hr, State.append, State.setPc,
        Instr.totalSize, Instr.headerSize, Instr.payloadSize, Nat.add_assoc]
    · simp [portFinish, produce, forwardInRange, beNumber_pair, hr, raiseErr]
  | rref n | rrefX n =>
    refine congrArg (checkCeiling _ s) (readPair_eq_readBytes _ _ _ _ fun b0 b1 l => ?_)
    by_cases hr : be16 b0 b1 < s.outLen ∧ n ≤ be16 b0 b1 + 1
    · simp [complete, portFinish, produce, backwardInRange, beNumber_pair, hr, State.append, State.setPc,
        Instr.totalSize, Instr.headerSize, Instr.payloadSize, Nat.add_assoc]
    · simp only [produce, portFinish, backwardInRange, beNumber_pair, State.noteReads_outLen, hr, decide_false,
        Bool.false_eq_true, if_false, State.noteReads_raise, raiseErr_noteReads]
  | endMark | illFC _ | illFD _ | illFE _ => simp [Instr.dataBearing] at h

/-- A data-bearing command that would pass the ceiling: failure entry, no payload transaction. -/
theorem exec_overflowing {i : Instr} (h : i.dataBearing = true) {s : State} (ho : s.Overflowing i) :
    exec i s = .next (s.failedAfter .outputOverflow []) := by
  rw [exec_eq_dataCommand h, dataCommand, checkCeiling_over ho.2]

/-- Under the ceiling with a payload byte exhausted: failure entry at the first such byte. -/
theorem exec_missing {i : Instr} (h : i.dataBearing = true) {s : State} (ho : ¬ s.Overflowing i) {k : Nat}
    (hk : k < i.payloadSize) (hm : s.FirstMissing (s.pc + i.headerSize) k) :
    exec i s = .next (s.failedAfter .truncatedInput (s.issuedTo (s.pc + i.headerSize) k)) := by
  rw [exec_eq_dataCommand h, dataCommand, checkCeiling_fits (Nat.le_of_not_lt fun hn => ho ⟨h, hn⟩), readBytes_missing hk hm]

/-- Under the ceiling with the whole payload present: the range check and the append. -/
theorem exec_present {i : Instr} (h : i.dataBearing = true) {s : State} (ho : ¬ s.Overflowing i)
    (hp : s.Present (s.pc + i.headerSize) i.payloadSize) :
    exec i s = .next (portFinish i (s.bytesAt (s.pc + i.headerSize) i.payloadSize)
      (s.noteReads (List.range' (s.pc + i.headerSize) i.payloadSize))) := by
  rw [exec_eq_dataCommand h, dataCommand, checkCeiling_fits (Nat.le_of_not_lt fun hn => ho ⟨h, hn⟩), readBytes_present hp]

theorem exec_illegal {i : Instr} (h : i.illegal = true) (s : State) :
    exec i s = .next (s.failedAfter .unknownCommand []) := by
  cases i <;> first
    | simp [exec, execIllFC, execIllFD, execIllFE, raiseErr, State.raise_eq]; done
    | simp [Instr.illegal] at h

theorem exec_endMark (s : State) : exec .endMark s = .next s.finish := rfl

/-- Data-bearing, illegal, or `END`. -/
theorem instr_trichotomy (i : Instr) : i.dataBearing = true ∨ i.illegal = true ∨ i = .endMark := by
  cases i <;> simp [Instr.dataBearing, Instr.illegal]

/-- The bytes a data-bearing command appends number `appendCount`. -/
theorem produce_length {i : Instr} {got v : List Byte} {s : State} (hd : i.dataBearing = true)
    (hg : got.length = i.payloadSize) (h : produce i got s = .ok v) : v.length = i.appendCount := by
  cases i with
  | lit n | litX n =>
    simp only [produce, Except.ok.injEq] at h
    subst h
    exact hg
  | runb n | runbX n | runw n | runwX n =>
    simp only [produce, Except.ok.injEq] at h
    subst h
    simp [hg, Instr.payloadSize, Instr.appendCount, Nat.mul_comm]
  | runi n | runiX n =>
    simp only [produce, Except.ok.injEq] at h
    subst h
    obtain ⟨b, rfl⟩ := List.length_eq_one_iff.mp (hg : got.length = 1)
    simp [Instr.appendCount]
  | bref n | brefX n =>
    simp only [produce] at h
    split at h
    · rename_i hr
      simp only [Except.ok.injEq] at h
      subst h
      exact forwardRange_length hr
    · simp at h
  | mref n | mrefX n =>
    simp only [produce] at h
    split at h
    · rename_i hr
      simp only [Except.ok.injEq] at h
      subst h
      rw [List.length_map]
      exact forwardRange_length hr
    · simp at h
  | rref n | rrefX n =>
    simp only [produce] at h
    split at h
    · rename_i hr
      simp only [Except.ok.injEq] at h
      subst h
      exact backwardRange_length hr.1
    · simp at h
  | endMark | illFC _ | illFD _ | illFE _ => simp [Instr.dataBearing] at hd

/-- The only error of the last part of a command is the range check's. -/
theorem produce_error {i : Instr} {got : List Byte} {s : State} {e : ErrKind} (h : produce i got s = .error e) :
    e = .backReferenceOutOfRange ∧ i.backReference = true := by
  cases i with
  | bref n | brefX n | mref n | mrefX n | rref n | rrefX n =>
    simp only [produce] at h
    split at h
    · simp at h
    · simp only [Except.error.injEq] at h
      exact ⟨h.symm, rfl⟩
  | lit n | litX n | runb n | runbX n | runw n | runwX n | runi n | runiX n | endMark | illFC _ | illFD _ | illFE _ =>
    simp [produce] at h

theorem produce_noteReads (i : Instr) (got : List Byte) (s : State) (l : List Nat) :
    produce i got (s.noteReads l) = produce i got s := by
  cases i <;> rfl

/-- Everything `exec` can do: `END`; failure entry; or a data-bearing command that appended its bytes. There is
always a next state. -/
theorem exec_cases (i : Instr) (s : State) :
    (i = .endMark ∧ exec i s = .next s.finish) ∨
    (i.illegal = true ∧ exec i s = .next (s.failedAfter .unknownCommand [])) ∨
    (i.dataBearing = true ∧ s.Overflowing i ∧ exec i s = .next (s.failedAfter .outputOverflow [])) ∨
    (i.dataBearing = true ∧ ¬ s.Overflowing i ∧ ∃ k < i.payloadSize, s.FirstMissing (s.pc + i.headerSize) k ∧
      exec i s = .next (s.failedAfter .truncatedInput (s.issuedTo (s.pc + i.headerSize) k))) ∨
    (i.dataBearing = true ∧ ¬ s.Overflowing i ∧ s.Present (s.pc + i.headerSize) i.payloadSize ∧
      produce i (s.bytesAt (s.pc + i.headerSize) i.payloadSize) s = .error .backReferenceOutOfRange ∧
      exec i s = .next (s.failedAfter .backReferenceOutOfRange
        (List.range' (s.pc + i.headerSize) i.payloadSize))) ∨
    (i.dataBearing = true ∧ ¬ s.Overflowing i ∧ s.Present (s.pc + i.headerSize) i.payloadSize ∧
      ∃ v, produce i (s.bytesAt (s.pc + i.headerSize) i.payloadSize) s = .ok v ∧ v.length = i.appendCount ∧
        exec i s = .next { s with
          out := s.out ++ v
          pc := s.pc + i.totalSize
          reads := s.reads ++ List.range' (s.pc + i.headerSize) i.payloadSize }) := by
  rcases instr_trichotomy i with hd | hi | rfl
  · right; right
    by_cases ho : s.Overflowing i
    · exact .inl ⟨hd, ho, exec_overflowing hd ho⟩
    · right
      rcases s.present_or_firstMissing (s.pc + i.headerSize) i.payloadSize with hp | ⟨k, hk, hm⟩
      · right
        have hx := exec_present hd ho hp
        have hlen := State.bytesAt_length hp
        unfold portFinish at hx
        rw [produce_noteReads] at hx
        cases hv : produce i (s.bytesAt (s.pc + i.headerSize) i.payloadSize) s with
        | error e =>
          obtain ⟨rfl, _⟩ := produce_error hv
          refine .inl ⟨hd, ho, hp, rfl, ?_⟩
          rw [hx, hv]
          rfl
        | ok v =>
          refine .inr ⟨hd, ho, hp, v, rfl, produce_length hd hlen hv, ?_⟩
          rw [hx, hv]
          rfl
      · exact .inl ⟨hd, ho, k, hk, hm, exec_missing hd ho hk hm⟩
  · exact .inr (.inl ⟨hi, exec_illegal hi s⟩)
  · exact .inl ⟨rfl, rfl⟩

end Sys2Proof.Machine
end

