-- ==== Sys2Proof/Laws/PerInstr.lean ====
section
/-! SUPPORT. Statements made instruction by instruction. -/

/-- The encoder writes as many header bytes as the instruction's form has (spec/30_encoding.md R80, R88). -/
def Sys2Proof.Laws.HeaderBytes.Statement (i : Sys2Proof.Instr) : Prop :=
  (Sys2Proof.encode i).length = i.headerSize

namespace Sys2Proof.Laws.HeaderBytes

theorem lit (n : Nat) : Statement (.lit n) := rfl
theorem runb (n : Nat) : Statement (.runb n) := rfl
theorem runw (n : Nat) : Statement (.runw n) := rfl
theorem runi (n : Nat) : Statement (.runi n) := rfl
theorem bref (n : Nat) : Statement (.bref n) := rfl
theorem mref (n : Nat) : Statement (.mref n) := rfl
theorem rref (n : Nat) : Statement (.rref n) := rfl
theorem litX (n : Nat) : Statement (.litX n) := rfl
theorem runbX (n : Nat) : Statement (.runbX n) := rfl
theorem runwX (n : Nat) : Statement (.runwX n) := rfl
theorem runiX (n : Nat) : Statement (.runiX n) := rfl
theorem brefX (n : Nat) : Statement (.brefX n) := rfl
theorem mrefX (n : Nat) : Statement (.mrefX n) := rfl
theorem rrefX (n : Nat) : Statement (.rrefX n) := rfl
theorem endMark : Statement .endMark := rfl
theorem illFC (h1 : Byte) : Statement (.illFC h1) := rfl
theorem illFD (h1 : Byte) : Statement (.illFD h1) := rfl
theorem illFE (h1 : Byte) : Statement (.illFE h1) := rfl

end Sys2Proof.Laws.HeaderBytes
end

