-- ==== Sys2Proof/Laws/Step.lean ====
section
/-! SUPPORT. What a step can do, said once: the header fetch, then `exec`. -/

namespace Sys2Proof.Machine

theorem classifyFirst_headerSize {h0 : Byte} {i : Instr} (h : classifyFirst h0 = .whole i) : i.headerSize = 1 :=
  (classifyFirst_whole h).2.2

theorem decodeExtended_headerSize {h0 : Byte} (h : classifyFirst h0 = .extended) (h1 : Byte) :
    (decodeExtended h0 h1).headerSize = 2 := (decodeExtended_spec h h1).2.2

/-- The header fetch, said once. -/
theorem step_cases {s : State} (hr : s.state = .reading) :
    (s.srcByte s.pc = none ∧ step s = .next (s.failedAfter .truncatedInput (s.issuedTo s.pc 0))) ∨
    (∃ h0 i, s.srcByte s.pc = some h0 ∧ classifyFirst h0 = .whole i ∧
      step s = exec i (s.noteReads [s.pc])) ∨
    (∃ h0, s.srcByte s.pc = some h0 ∧ classifyFirst h0 = .extended ∧ s.srcByte (s.pc + 1) = none ∧
      step s = .next (s.failedAfter .truncatedInput (s.issuedTo s.pc 1))) ∨
    (∃ h0 h1, s.srcByte s.pc = some h0 ∧ classifyFirst h0 = .extended ∧ s.srcByte (s.pc + 1) = some h1 ∧
      step s = exec (decodeExtended h0 h1) (s.noteReads [s.pc, s.pc + 1])) := by
  have hstep : step s = fetchHeader s exec := by rw [step, hr]
  rw [hstep, fetchHeader]
  cases hb : s.srcByte s.pc with
  | none => exact .inl ⟨rfl, readU8_none hb _⟩
  | some h0 =>
    right
    rw [readU8_some hb]
    cases hc : classifyFirst h0 with
    | whole i => exact .inl ⟨h0, i, rfl, hc, rfl⟩
    | extended =>
      right
      cases hb1 : s.srcByte (s.pc + 1) with
      | none =>
        refine .inl ⟨h0, rfl, hc, rfl, ?_⟩
        have hb1' : (s.noteReads [s.pc]).srcByte (s.pc + 1) = none := hb1
        show readU8 (s.noteReads [s.pc]) (s.pc + 1) _ = _
        rw [readU8_none hb1', State.issuedTo_succ s s.pc 0]
        simp
      | some h1 =>
        refine .inr ⟨h0, h1, rfl, hc, rfl, ?_⟩
        have hb1' : (s.noteReads [s.pc]).srcByte (s.pc + 1) = some h1 := hb1
        show readU8 (s.noteReads [s.pc]) (s.pc + 1) _ = _
        rw [readU8_some hb1']
        simp

/-- The header fetch either fails or hands an instruction to `exec`, its header transactions recorded. -/
theorem step_fetch {s : State} (hr : s.state = .reading) :
    (∃ k, k ≤ 1 ∧ s.FirstMissing s.pc k ∧
      step s = .next (s.failedAfter .truncatedInput (s.issuedTo s.pc k))) ∨
    (∃ i, s.Present s.pc i.headerSize ∧
      step s = exec i (s.noteReads (List.range' s.pc i.headerSize))) := by
  rcases step_cases hr with ⟨hb, h⟩ | ⟨h0, i, hb, hc, h⟩ | ⟨h0, hb, hc, hb1, h⟩ | ⟨h0, h1, hb, hc, hb1, h⟩
  · exact .inl ⟨0, by omega, ⟨fun j hj => by omega, hb⟩, h⟩
  · have hs := classifyFirst_headerSize hc
    refine .inr ⟨i, ?_, by rw [h, hs]; rfl⟩
    intro j hj
    have : j = 0 := by omega
    subst this
    simp [hb]
  · refine .inl ⟨1, by omega, ⟨?_, hb1⟩, h⟩
    intro j hj
    have : j = 0 := by omega
    subst this
    simp [hb]
  · have hs := decodeExtended_headerSize hc h1
    refine .inr ⟨decodeExtended h0 h1, ?_, by rw [h, hs]; rfl⟩
    intro j hj
    have : j = 0 ∨ j = 1 := by omega
    rcases this with rfl | rfl
    · simp [hb]
    · simp [hb1]

/-! ## The whole step -/

theorem State.Present.one {s : State} {a : Nat} {b : Byte} (h : s.srcByte a = some b) : s.Present a 1 := fun j hj => by
  have : j = 0 := by omega
  subst this
  simp [h]

theorem State.Present.two {s : State} {a : Nat} {b c : Byte} (h : s.srcByte a = some b)
    (h' : s.srcByte (a + 1) = some c) : s.Present a 2 := fun j hj => by
  have : j = 0 ∨ j = 1 := by omega
  rcases this with rfl | rfl <;> simp [h, h']

theorem State.Present.append {s : State} {a m n : Nat} (h : s.Present a m) (h' : s.Present (a + m) n) :
    s.Present a (m + n) := fun j hj => by
  by_cases hm : j < m
  · exact h j hm
  · have := h' (j - m) (by omega)
    rwa [show a + m + (j - m) = a + j by omega] at this

/-- Bytes that exist end inside the source space (spec/20_memory.md R57). -/
theorem State.Present.top {s : State} {a n : Nat} (h : s.Present a n) (hn : 1 ≤ n) : a + n ≤ 2 ^ s.aw := by
  have hlast := h (n - 1) (by omega)
  by_contra hc
  rw [State.srcByte_beyond s (by omega)] at hlast
  simp at hlast

theorem State.range'_append_issuedTo (s : State) (a m k : Nat) :
    List.range' a m ++ s.issuedTo (a + m) k = s.issuedTo a (m + k) := by
  unfold State.issuedTo
  rw [show a + m + k = a + (m + k) by omega]
  split
  · rw [show m + k + 1 = m + (k + 1) by omega, List.range'_append_1]
  · rw [List.range'_append_1]

/-- Everything a step from `s` to `t` can be, in terms of `s`: the seven ways of R111. -/
inductive StepResult (s t : State) : Prop where
  | headerTruncated (k : Nat) (hk : k ≤ 1) (missing : s.FirstMissing s.pc k)
      (next : t = s.failedAfter .truncatedInput (s.issuedTo s.pc k))
  | ended (byte : s.srcByte s.pc = some 0xFF#8)
      (next : t = { s with pc := s.pc + 1, state := .done, reads := s.reads ++ [s.pc] })
  | unknown (i : Instr) (illegal : i.illegal = true) (header : s.Present s.pc i.headerSize)
      (next : t = s.failedAfter .unknownCommand (List.range' s.pc i.headerSize))
  | overflowed (i : Instr) (data : i.dataBearing = true) (header : s.Present s.pc i.headerSize)
      (tooMany : s.Overflowing i) (next : t = s.failedAfter .outputOverflow (List.range' s.pc i.headerSize))
  | payloadTruncated (i : Instr) (k : Nat) (data : i.dataBearing = true) (header : s.Present s.pc i.headerSize)
      (fits : ¬ s.Overflowing i) (hk : k < i.payloadSize) (missing : s.FirstMissing (s.pc + i.headerSize) k)
      (next : t = s.failedAfter .truncatedInput (s.issuedTo s.pc (i.headerSize + k)))
  | outOfRange (i : Instr) (data : i.dataBearing = true) (bytes : s.Present s.pc i.totalSize)
      (fits : ¬ s.Overflowing i)
      (bad : produce i (s.bytesAt (s.pc + i.headerSize) i.payloadSize) s = .error .backReferenceOutOfRange)
      (next : t = s.failedAfter .backReferenceOutOfRange (List.range' s.pc i.totalSize))
  | completed (i : Instr) (v : List Byte) (wf : i.wellFormed = true) (data : i.dataBearing = true)
      (bytes : s.Present s.pc i.totalSize) (fits : ¬ s.Overflowing i)
      (good : produce i (s.bytesAt (s.pc + i.headerSize) i.payloadSize) s = .ok v) (len : v.length = i.appendCount)
      (next : t = { s with out := s.out ++ v, pc := s.pc + i.totalSize,
                           reads := s.reads ++ List.range' s.pc i.totalSize })

/-- What `exec` does after the header fetch, as a step. -/
theorem StepResult.of_exec {s t : State} {i : Instr} (hw : i.wellFormed = true)
    (he : i = .endMark → s.srcByte s.pc = some 0xFF#8) (hp : s.Present s.pc i.headerSize)
    (h : exec i (s.noteReads (List.range' s.pc i.headerSize)) = .next t) : StepResult s t := by
  rcases exec_cases i (s.noteReads (List.range' s.pc i.headerSize)) with ⟨rfl, hx⟩ | ⟨hi, hx⟩ | ⟨hd, ho, hx⟩ |
    ⟨hd, ho, k, hk, hm, hx⟩ | ⟨hd, ho, hpp, hv, hx⟩ | ⟨hd, ho, hpp, v, hv, hl, hx⟩ <;>
    (rw [hx] at h; simp only [Host.Outcome.next.injEq] at h; subst h)
  · exact .ended (he rfl) rfl
  · exact .unknown i hi hp (by simp)
  · exact .overflowed i hd hp ho (by simp)
  · refine .payloadTruncated i k hd hp ho hk hm ?_
    simp only [State.noteReads_failedAfter, State.noteReads_issuedTo, State.noteReads_pc,
      State.range'_append_issuedTo]
  · rw [produce_noteReads] at hv
    refine .outOfRange i hd (hp.append hpp) ho hv ?_
    simp only [State.noteReads_failedAfter, State.noteReads_pc, Instr.totalSize, List.range'_append_1]
  · rw [produce_noteReads] at hv
    refine .completed i v hw hd (hp.append hpp) ho hv hl ?_
    simp only [Instr.totalSize, State.noteReads_pc, State.noteReads_reads, State.noteReads_out, List.append_assoc,
      List.range'_append_1]
    rfl

/-- The step inversion: later proofs split these seven cases and never unfold `step`. -/
theorem step_result {s t : State} (hr : s.state = .reading) (h : step s = .next t) : StepResult s t := by
  rcases step_cases hr with ⟨hb, hs⟩ | ⟨h0, i, hb, hc, hs⟩ | ⟨h0, hb, hc, hn, hs⟩ | ⟨h0, h1, hb, hc, hb1, hs⟩
  · rw [hs] at h
    cases h
    exact .headerTruncated 0 (by omega) ⟨fun j hj => by omega, hb⟩ rfl
  · obtain ⟨hw, _, hz⟩ := classifyFirst_whole hc
    refine .of_exec hw (fun e => ?_) (by rw [hz]; exact .one hb) (by rw [hz, ← h, hs]; rfl)
    subst e
    rw [hb, classifyFirst_endMark hc]
  · rw [hs] at h
    cases h
    exact .headerTruncated 1 (by omega) ⟨.one hb, hn⟩ rfl
  · obtain ⟨hw, _, hz⟩ := decodeExtended_spec hc h1
    refine .of_exec hw (fun e => ?_) (by rw [hz]; exact .two hb hb1) (by rw [hz, ← h, hs]; rfl)
    rw [e] at hz
    simp [Instr.headerSize] at hz

/-- Outside `Reading` there is no step. -/
theorem step_not_reading {s : State} (h : s.state ≠ .reading) : step s = .fault .noStep := by
  unfold step
  cases hs : s.state with
  | reading => exact absurd hs h
  | idle | done | failed => rfl

/-! ## Laying an instruction at pc -/

/-- What `withFetchWord` writes keeps the source in canonical form. -/
theorem State.loadAtPc_wf {s : State} (hwf : Memory.wf s.aw s.src) (hpc : s.pc ≤ 2 ^ s.aw) (bytes : List Byte) :
    Memory.wf (s.loadAtPc bytes).aw (s.loadAtPc bytes).src := by
  refine Memory.overlay_wf hwf _ _ fun _ => ?_
  rw [List.length_take]
  omega

end Sys2Proof.Machine
end

