-- ==== Sys2Proof/Tests/Slice0.lean ====
section
/-! SUPPORT. The model's own tests. Expected values come from spec/95_test_vectors.md and the encoding tables of
spec/30_encoding.md, named at each test. The last part shows, for every obligation with hypotheses, concrete values
that meet all of them together. -/

namespace Sys2Proof.Machine

/-- A decoder in `Reading` with `AW` 16, `pc` 0, these source bytes from address 0 upward and this buffer. -/
def machine (bytes : List Byte) (out : List Byte := []) : State :=
  { aw := 16, src := Memory.cellsFrom 0 bytes, srcCursor := 0, state := .reading, pc := 0, err := .none, out := out,
    reads := [] }

/-- The same with `n` zero bytes in the buffer. -/
def filled (bytes : List Byte) (n : Nat) : State := machine bytes (List.replicate n 0#8)

/-! ## WellFormed -/

theorem test_length_zero_refused :
    ([Instr.lit 0, .runb 0, .runw 0, .runi 0, .bref 0, .mref 0, .rref 0, .litX 0, .runbX 0, .runwX 0, .runiX 0,
      .brefX 0, .mrefX 0, .rrefX 0].all fun i => !i.wellFormed) = true := by decide

theorem test_length_above_range_refused :
    ([Instr.lit 33, .runb 33, .runw 33, .runi 33, .bref 33, .mref 33, .rref 33, .litX 1025, .runbX 1025, .runwX 1025,
      .runiX 1025, .brefX 1025, .mrefX 1025, .rrefX 1025].all fun i => !i.wellFormed) = true := by decide

theorem test_boundary_lengths_accepted :
    ([Instr.lit 1, .runb 32, .runw 1, .runi 32, .bref 1, .mref 32, .rref 32, .litX 1, .runbX 1024, .runwX 1024,
      .runiX 1, .brefX 1024, .mrefX 1, .rrefX 1024, .endMark, .illFC 0#8, .illFD 7#8, .illFE 0xFF#8].all
      fun i => i.wellFormed) = true := by decide

/-! ## Decoding: words written out from the table of spec/30_encoding.md R97 (bits `ccc lllll`, and
`111 ccc ll`, `llllllll`) -/

theorem test_decode_lit : decode [0b00000000#8] = .ok (.lit 1, []) ∧ decode [0b00011111#8] = .ok (.lit 32, []) :=
  ⟨rfl, rfl⟩
theorem test_decode_runb : decode [0b00100000#8] = .ok (.runb 1, []) ∧ decode [0b00111111#8] = .ok (.runb 32, []) :=
  ⟨rfl, rfl⟩
theorem test_decode_runw : decode [0b01000000#8] = .ok (.runw 1, []) ∧ decode [0b01011111#8] = .ok (.runw 32, []) :=
  ⟨rfl, rfl⟩
theorem test_decode_runi : decode [0b01100000#8] = .ok (.runi 1, []) ∧ decode [0b01111111#8] = .ok (.runi 32, []) :=
  ⟨rfl, rfl⟩
theorem test_decode_bref : decode [0b10000000#8] = .ok (.bref 1, []) ∧ decode [0b10011111#8] = .ok (.bref 32, []) :=
  ⟨rfl, rfl⟩
theorem test_decode_mref : decode [0b10100000#8] = .ok (.mref 1, []) ∧ decode [0b10111111#8] = .ok (.mref 32, []) :=
  ⟨rfl, rfl⟩
theorem test_decode_rref : decode [0b11000000#8] = .ok (.rref 1, []) ∧ decode [0b11011111#8] = .ok (.rref 32, []) :=
  ⟨rfl, rfl⟩
theorem test_decode_litX : decode [0b11100000#8, 0b00000000#8] = .ok (.litX 1, []) ∧
    decode [0b11100011#8, 0b11111111#8] = .ok (.litX 1024, []) := ⟨rfl, rfl⟩
theorem test_decode_runbX : decode [0b11100100#8, 0b00100111#8] = .ok (.runbX 40, []) ∧
    decode [0b11100111#8, 0b11111111#8] = .ok (.runbX 1024, []) := ⟨rfl, rfl⟩
theorem test_decode_runwX : decode [0b11101000#8, 0b00000000#8] = .ok (.runwX 1, []) ∧
    decode [0b11101011#8, 0b11111110#8] = .ok (.runwX 1023, []) := ⟨rfl, rfl⟩
theorem test_decode_runiX : decode [0b11101101#8, 0b00000011#8] = .ok (.runiX 260, []) ∧
    decode [0b11101111#8, 0b11111111#8] = .ok (.runiX 1024, []) := ⟨rfl, rfl⟩
theorem test_decode_brefX : decode [0b11110000#8, 0b00000000#8] = .ok (.brefX 1, []) ∧
    decode [0b11110011#8, 0b11111111#8] = .ok (.brefX 1024, []) := ⟨rfl, rfl⟩
theorem test_decode_mrefX : decode [0b11110100#8, 0b00100000#8] = .ok (.mrefX 33, []) ∧
    decode [0b11110111#8, 0b11111111#8] = .ok (.mrefX 1024, []) := ⟨rfl, rfl⟩
theorem test_decode_rrefX : decode [0b11111000#8, 0b00000010#8] = .ok (.rrefX 3, []) ∧
    decode [0b11111011#8, 0b11111111#8] = .ok (.rrefX 1024, []) := ⟨rfl, rfl⟩
theorem test_decode_endMark : decode [0b11111111#8] = .ok (.endMark, []) := rfl
theorem test_decode_illegal : decode [0b11111100#8, 0b00000000#8] = .ok (.illFC 0#8, []) ∧
    decode [0b11111101#8, 0b00010010#8] = .ok (.illFD 0x12#8, []) ∧
    decode [0b11111110#8, 0b11111111#8] = .ok (.illFE 0xFF#8, []) := ⟨rfl, rfl, rfl⟩
theorem test_decode_too_short : decode [] = .error .noFirstByte ∧ decode [0xE0#8] = .error .noSecondByte ∧
    decode [0xFC#8] = .error .noSecondByte := ⟨rfl, rfl, rfl⟩

/-- spec/95_test_vectors.md section 2.1. -/
theorem test_encode_header :
    encodeHeader 0 32 = some [0x1F#8] ∧ encodeHeader 0 33 = some [0xE0#8, 0x20#8] ∧
    encodeHeader 0 257 = some [0xE1#8, 0x00#8] ∧ encodeHeader 1 40 = some [0xE4#8, 0x27#8] ∧
    encodeHeader 5 33 = some [0xF4#8, 0x20#8] ∧ encodeHeader 6 1024 = some [0xFB#8, 0xFF#8] ∧
    encodeHeader 7 1 = none ∧ encodeHeader 0 0 = none ∧ encodeHeader 0 1025 = none := by decide

/-- spec/95_test_vectors.md section 2.2. -/
theorem test_decode_header :
    decodeHeader 0xDF#8 (fun _ => none) = some (.command 6 32 1) ∧
    decodeHeader 0xE0#8 (fun _ => some 0x1F#8) = some (.command 0 32 2) ∧
    decodeHeader 0xE7#8 (fun _ => some 0xFF#8) = some (.command 1 1024 2) ∧
    decodeHeader 0xFE#8 (fun _ => some 0xFF#8) = some (.command 7 768 2) ∧
    decodeHeader 0xFF#8 (fun _ => none) = some .endMark := by decide

/-- spec/95_test_vectors.md section 3.9. -/
theorem test_rev8 :
    [0x00#8, 0x01#8, 0x0F#8, 0x12#8, 0x41#8, 0x59#8, 0x7F#8, 0xA5#8, 0xFE#8].map rev8 =
      [0x00#8, 0x80#8, 0xF0#8, 0x48#8, 0x82#8, 0x9A#8, 0xFE#8, 0xA5#8, 0x7F#8] := by decide

/-- The whole table of spec/41_bit_reversal.md R133, by the nibble table it gives:
`rev8(hi || lo) = rev4(lo) || rev4(hi)`. -/
theorem test_rev8_table : ∀ b : Byte,
    some (rev8 b).toNat = (([0, 8, 4, 12, 2, 10, 6, 14] ++ [1, 9, 5, 13, 3, 11, 7, 15])[b.toNat % 16]?.bind fun lo =>
      ([0, 8, 4, 12, 2, 10, 6, 14] ++ [1, 9, 5, 13, 3, 11, 7, 15])[b.toNat / 16]?.map fun hi => lo * 16 + hi) := by
  decide

/-! ## The host's table words -/

theorem test_decode_table_word : decodeTableWord 8 0x82 = some (.bref 3) ∧ decodeTableWord 8 0xFF = some .endMark ∧
    decodeTableWord 16 0x27E4 = some (.runbX 40) ∧ decodeTableWord 16 0x12FD = some (.illFD 0x12#8) :=
  ⟨rfl, rfl, rfl, rfl⟩

theorem test_fetch_word_runs_first :
    (nextState? (step (State.reset.withFetchWord 8 0x22))).map (fun t => (t.out, t.pc)) =
      some ([0#8, 0#8, 0#8], 2) ∧
    (nextState? (step (State.reset.withFetchWord 8 0xFF))).map (fun t => (t.state, t.pc)) = some (.done, 1) := by
  decide

/-! ## One step of each instruction (vectors of spec/95_test_vectors.md, named in the comments) -/

/-- What a step leaves: state, error, `pc`, output, transactions. -/
def after (s : State) : Option (DecoderState × ErrKind × Nat × List Byte × List Nat) :=
  (nextState? (step s)).map fun t => (t.state, t.err, t.pc, t.out, t.reads)

/-- L1: a payload byte FF is data. -/
theorem test_lit : after (machine [0x00#8, 0xFF#8]) = some (.reading, .none, 2, [0xFF#8], [0, 1]) := by decide
/-- L2: reads 0..3. -/
theorem test_lit_truncated : after (machine [0x02#8, 1#8, 2#8]) =
    some (.failed, .truncatedInput, 0, [], [0, 1, 2, 3]) := by decide
/-- S6. -/
theorem test_litX : after (machine [0xE0#8, 0x00#8, 0x41#8]) =
    some (.reading, .none, 3, [0x41#8], [0, 1, 2]) := by decide
/-- P1, second line. -/
theorem test_runb : after (machine [0x23#8, 0x59#8]) =
    some (.reading, .none, 2, [0x59#8, 0x59#8, 0x59#8, 0x59#8], [0, 1]) := by decide
/-- L4. -/
theorem test_runb_truncated : after (machine [0x20#8]) = some (.failed, .truncatedInput, 0, [], [0, 1]) := by decide
/-- P1, eighth line. -/
theorem test_runbX : after (machine [0xE4#8, 0x03#8, 0x2E#8]) =
    some (.reading, .none, 3, [0x2E#8, 0x2E#8, 0x2E#8, 0x2E#8], [0, 1, 2]) := by decide
/-- S5. -/
theorem test_runw : after (machine [0x42#8, 0xAA#8, 0xBB#8]) =
    some (.reading, .none, 3, [0xAA#8, 0xBB#8, 0xAA#8, 0xBB#8, 0xAA#8, 0xBB#8], [0, 1, 2]) := by decide
/-- L6. -/
theorem test_runw_truncated : after (machine [0x41#8, 0x12#8]) =
    some (.failed, .truncatedInput, 0, [], [0, 1, 2]) := by decide
/-- L5 in its extended form (R116). -/
theorem test_runwX : after (machine [0xE8#8, 0x00#8, 0x12#8, 0x34#8]) =
    some (.reading, .none, 4, [0x12#8, 0x34#8], [0, 1, 2, 3]) := by decide
/-- L7: wraps modulo 256. -/
theorem test_runi : after (machine [0x63#8, 0xFE#8]) =
    some (.reading, .none, 2, [0xFE#8, 0xFF#8, 0x00#8, 0x01#8], [0, 1]) := by decide
/-- L9 in its extended form. -/
theorem test_runiX : after (machine [0xEC#8, 0x01#8, 0xFF#8]) =
    some (.reading, .none, 3, [0xFF#8, 0x00#8], [0, 1, 2]) := by decide
/-- B3: `off + length = out_len`. -/
theorem test_bref : after (machine [0x80#8, 0x00#8, 0x02#8] [1#8, 2#8, 3#8]) =
    some (.reading, .none, 3, [1#8, 2#8, 3#8, 3#8], [0, 1, 2]) := by decide
/-- B2: self-overlap. -/
theorem test_bref_overlap : after (machine [0x81#8, 0x00#8, 0x02#8] [1#8, 2#8, 3#8]) =
    some (.failed, .backReferenceOutOfRange, 0, [], [0, 1, 2]) := by decide
/-- B1 in its extended form. -/
theorem test_brefX : after (machine [0xF0#8, 0x02#8, 0x00#8, 0x00#8] [1#8, 2#8, 3#8]) =
    some (.reading, .none, 4, [1#8, 2#8, 3#8, 1#8, 2#8, 3#8], [0, 1, 2, 3]) := by decide
/-- B8. -/
theorem test_mref : after (machine [0xA2#8, 0x00#8, 0x00#8] [0x01#8, 0x12#8, 0xF0#8]) =
    some (.reading, .none, 3, [0x01#8, 0x12#8, 0xF0#8, 0x80#8, 0x48#8, 0x0F#8], [0, 1, 2]) := by decide
/-- B10. -/
theorem test_mref_out_of_range : after (machine [0xA1#8, 0x00#8, 0x02#8] [0x01#8, 0x12#8, 0xF0#8]) =
    some (.failed, .backReferenceOutOfRange, 0, [], [0, 1, 2]) := by decide
/-- P1, sixth line (`rev8(59) = 9A`), in its extended form. -/
theorem test_mrefX : after (machine [0xF4#8, 0x01#8, 0x00#8, 0x01#8] [0x42#8, 0x59#8, 0x59#8]) =
    some (.reading, .none, 4, [0x42#8, 0x59#8, 0x59#8, 0x9A#8, 0x9A#8], [0, 1, 2, 3]) := by decide
/-- B11. -/
theorem test_rref : after (machine [0xC2#8, 0x00#8, 0x05#8] [10#8, 11#8, 12#8, 13#8, 14#8, 15#8]) =
    some (.reading, .none, 3, [10#8, 11#8, 12#8, 13#8, 14#8, 15#8, 15#8, 14#8, 13#8], [0, 1, 2]) := by decide
/-- B13: the walk would pass index 0. -/
theorem test_rref_below_zero : after (machine [0xC6#8, 0x00#8, 0x05#8] [10#8, 11#8, 12#8, 13#8, 14#8, 15#8]) =
    some (.failed, .backReferenceOutOfRange, 0, [], [0, 1, 2]) := by decide
/-- B18, and B14 (`off = out_len`) in its extended form. -/
theorem test_rrefX :
    after (machine [0xF8#8, 0x02#8, 0x00#8, 0x05#8] [10#8, 11#8, 12#8, 13#8, 14#8, 15#8]) =
      some (.reading, .none, 4, [10#8, 11#8, 12#8, 13#8, 14#8, 15#8, 15#8, 14#8, 13#8], [0, 1, 2, 3]) ∧
    after (machine [0xF8#8, 0x00#8, 0x00#8, 0x06#8] [10#8, 11#8, 12#8, 13#8, 14#8, 15#8]) =
      some (.failed, .backReferenceOutOfRange, 0, [], [0, 1, 2, 3]) := ⟨by decide, by decide⟩
/-- S1, S3a's last step, H12. -/
theorem test_end : after (machine [0xFF#8] [7#8]) = some (.done, .none, 1, [7#8], [0]) ∧
    after (machine []) = some (.failed, .truncatedInput, 0, [], [0]) := ⟨by decide, by decide⟩
/-- H7, H8, H9. -/
theorem test_illegal : after (machine [0xFC#8, 0x00#8]) = some (.failed, .unknownCommand, 0, [], [0, 1]) ∧
    after (machine [0xFD#8, 0x12#8]) = some (.failed, .unknownCommand, 0, [], [0, 1]) ∧
    after (machine [0xFE#8, 0xFF#8]) = some (.failed, .unknownCommand, 0, [], [0, 1]) := ⟨by decide, by decide, by decide⟩
/-- H10, H11: truncation wins over unknown command. -/
theorem test_header_truncated : after (machine [0xFC#8]) = some (.failed, .truncatedInput, 0, [], [0, 1]) ∧
    after (machine [0xE0#8]) = some (.failed, .truncatedInput, 0, [], [0, 1]) := ⟨by decide, by decide⟩

/-! ## Host control (spec/95_test_vectors.md section 3.10) -/

/-- C1. -/
theorem test_registers_after_reset : hostRead .status State.reset = some 0 ∧ hostRead .outLen State.reset = some 0 ∧
    State.reset.outRd 0 = none := by decide

/-- C3, C8 and `Reading`. -/
theorem test_status_codes :
    hostRead .status ((machine []).raise .unknownCommand) = some 7 ∧
    hostRead .status ((machine []).raise .outputOverflow) = some 11 ∧
    hostRead .status ((machine []).raise .backReferenceOutOfRange) = some 15 ∧
    hostRead .status ((machine []).raise .truncatedInput) = some 19 ∧
    hostRead .status (machine []) = some 1 ∧ hostRead .status ((machine []).finish) = some 2 := by decide

/-- C6: the cursor is sampled. -/
theorem test_start_at_cursor :
    (nextState? (hostWrite .startCur 99 { State.reset with srcCursor := 0x10 })).map (fun t => (t.pc, t.state)) =
      some (0x10, .reading) := by decide

/-- R95: lines and their bytes (S2, P1, P2). -/
theorem test_assemble :
    assembleAll [.runb .canonical 40 0x41#8, .bref .canonical 4 0, .lit .extended [0x03#8], .endMark] =
      some [0xE4#8, 0x27#8, 0x41#8, 0x83#8, 0x00#8, 0x00#8, 0xE0#8, 0x00#8, 0x03#8, 0xFF#8] ∧
    (AsmLine.rref .canonical 1 0x1234#16).assemble = some [0xC0#8, 0x12#8, 0x34#8] ∧
    (AsmLine.lit .canonical []).assemble = none ∧ (AsmLine.ill 0xFB#8 0#8).assemble = none := by decide

/-- Two transactions of `FC 00` fail as the step does, the first one changing no register. -/
theorem test_port : (portTicks 1 (atBoundary (machine [0xFC#8, 0#8]))).map (fun m => m.machine.err) = some .none ∧
    (portTicks 2 (atBoundary (machine [0xFC#8, 0#8]))).map (fun m => (m.machine.err, m.phase)) =
      some (.unknownCommand, .boundary) := by decide

/-! ## Witnesses: for every obligation with hypotheses, values that meet all of them together, clause by clause -/

/-- An outcome with a next state, shown by evaluating one view of it. -/
theorem exists_next {o : StepOutcome} {α : Type} {f : State → α} {a : α} (h : (nextState? o).map f = some a) :
    ∃ t, o = .next t ∧ f t = a := by
  cases o with
  | next t => exact ⟨t, rfl, by simpa [nextState?] using h⟩
  | fault r => simp [nextState?] at h
  | refused r => simp [nextState?] at h

theorem filled_outLen (bytes : List Byte) (n : Nat) : (filled bytes n).outLen = n := List.length_replicate

/-- The invariant holds of every test state whose buffer is not too long. -/
theorem machine_inv (bytes out : List Byte) (hb : bytes.length ≤ 2 ^ 16) (ho : out.length ≤ Config.outMax) :
    (machine bytes out).Inv where
  aw_pos := show 1 ≤ 16 by decide
  src_wf := ⟨Memory.cellsFrom_rising _ _, fun c hc => by
    have := Memory.mem_cellsFrom hc
    show c.1 < 2 ^ 16
    omega⟩
  cursor_lt := show 0 < 2 ^ 16 by decide
  pc_le := Nat.zero_le _
  outLen_le := ho
  err_iff := by simp [machine]
  failed_empty := by simp [machine]
  idle_empty := by simp [machine]

/-- A 1-byte header at `pc`. -/
theorem headerAt_one {s : State} {h0 : Byte} {i : Instr} (hd : decode [h0] = .ok (i, []))
    (hb : s.srcByte s.pc = some h0) : s.HeaderAt i :=
  ⟨[h0], hd, fun j hj => by
    have : j = 0 := by simpa using hj
    subst this
    exact hb⟩

/-- A 2-byte header at `pc`. -/
theorem headerAt_two {s : State} {h0 h1 : Byte} {i : Instr} (hd : decode [h0, h1] = .ok (i, []))
    (hb : s.srcByte s.pc = some h0) (hb1 : s.srcByte (s.pc + 1) = some h1) : s.HeaderAt i :=
  ⟨[h0, h1], hd, fun j hj => by
    have : j = 0 ∨ j = 1 := by
      simp only [List.length_cons, List.length_nil] at hj
      omega
    rcases this with rfl | rfl
    · exact hb
    · exact hb1⟩

theorem firstMissing_zero {s : State} {a : Nat} (h : s.srcByte a = none) : s.FirstMissing a 0 :=
  ⟨fun j hj => absurd hj (Nat.not_lt_zero j), h⟩

theorem firstMissing_one {s : State} {a : Nat} {b : Byte} (hb : s.srcByte a = some b) (h : s.srcByte (a + 1) = none) :
    s.FirstMissing a 1 := ⟨.one hb, h⟩

/-- A full buffer with the byte `h0` of a 1-byte command at `pc`: the next step overflows. -/
theorem filled_overflows {h0 : Byte} {i : Instr} {n : Nat} {bytes : List Byte}
    (hs : step (filled (h0 :: bytes) n) = exec i ((filled (h0 :: bytes) n).noteReads [0])) (hd : i.dataBearing = true)
    (ho : Config.outMax < n + i.appendCount) :
    step (filled (h0 :: bytes) n) =
      .next (((filled (h0 :: bytes) n).noteReads [0]).failedAfter .outputOverflow []) :=
  hs.trans (exec_overflowing hd ⟨hd, by rw [State.noteReads_outLen, filled_outLen]; exact ho⟩)

/-! ### Encoding -/

theorem witness_DecodeOfEncodedInstruction : (Instr.lit 1).wellFormed = true ∧ (Instr.rref 32).wellFormed = true ∧
    (Instr.litX 1024).wellFormed = true ∧ (Instr.illFE 0xFF#8).wellFormed = true := by decide
theorem witness_EncodeOfDecodedBytes : decode [0xFB#8, 0xFF#8, 0x00#8] = .ok (.rrefX 1024, [0x00#8]) := rfl
theorem witness_HeaderSymmetry : (6#3 : BitVec 3) ≠ 7#3 ∧ 1 ≤ 1024 ∧ 1024 ≤ 1024 ∧ 1 ≤ 32 ∧ 32 ≤ 32 := by decide
theorem witness_DecoderAgreesWithHeaderParser : classifyFirst 0xDF#8 = .whole (.rref 32) ∧
    classifyFirst 0xE0#8 = .extended ∧ classifyFirst 0xFE#8 = .extended := by decide
/-- Both ends of every range of R97. -/
theorem witness_FirstByteRanges : [0x00#8, 0x1F#8, 0x20#8, 0x3F#8, 0x40#8, 0x5F#8, 0x60#8, 0x7F#8, 0x80#8, 0x9F#8].map
      (fun b : Byte => b.toNat / 32) = [0, 0, 1, 1, 2, 2, 3, 3, 4, 4] ∧
    [0xA0#8, 0xBF#8, 0xC0#8, 0xDF#8].map (fun b : Byte => b.toNat / 32) = [5, 5, 6, 6] ∧
    [0xE0#8, 0xE3#8, 0xE4#8, 0xE7#8, 0xE8#8, 0xEB#8, 0xEC#8, 0xEF#8, 0xF0#8, 0xF3#8, 0xF4#8, 0xF7#8, 0xF8#8, 0xFB#8].map
      (fun b : Byte => b.toNat / 4 - 56) = [0, 0, 1, 1, 2, 2, 3, 3, 4, 4, 5, 5, 6, 6] := by decide
/-- Every alternative of the hypothesis has a line; lengths at and beyond both ends; the illegal bytes at both ends. -/
theorem witness_AssembledLines :
    (AsmLine.lit .canonical [7#8]).assemble = some [0x00#8, 7#8] ∧
    (AsmLine.runb .canonical 32 7#8).assemble = some [0x3F#8, 7#8] ∧
    (AsmLine.runb .canonical 33 7#8).assemble = some [0xE4#8, 0x20#8, 7#8] ∧
    (AsmLine.runw .extended 1 1#8 2#8).assemble = some [0xE8#8, 0x00#8, 1#8, 2#8] ∧
    (AsmLine.runi .canonical 1024 9#8).assemble = some [0xEF#8, 0xFF#8, 9#8] ∧
    (AsmLine.runi .canonical 1025 9#8).assemble = none ∧ (AsmLine.bref .canonical 0 0).assemble = none ∧
    (AsmLine.bref .extended 1 0xFFFF#16).assemble = some [0xF0#8, 0x00#8, 0xFF#8, 0xFF#8] ∧
    (AsmLine.mref .canonical 1 0x0102#16).assemble = some [0xA0#8, 0x01#8, 0x02#8] ∧
    (AsmLine.rref .canonical 1 0x0102#16).assemble = some [0xC0#8, 0x01#8, 0x02#8] ∧
    (AsmLine.ill 0xFC#8 1#8).assemble = some [0xFC#8, 1#8] ∧ (AsmLine.ill 0xFE#8 1#8).assemble = some [0xFE#8, 1#8] := by
  decide

/-! ### Commands: overflow by one byte, a missing payload byte, exactly at the ceiling -/

theorem witness_LiteralCommand :
    (FormOf .lit .litX (.lit 1) 1 1 ∧ Config.outMax < (filled [0x00#8] 65535).outLen + 1) ∧
    (FormOf .lit .litX (.litX 1024) 2 1024 ∧ (machine [0xE3#8, 0xFF#8]).outLen + 1024 ≤ Config.outMax ∧
      (machine [0xE3#8, 0xFF#8]).FirstMissing 2 0) ∧
    (FormOf .lit .litX (.lit 2) 1 2 ∧ (machine [0x01#8, 9#8]).FirstMissing 1 1) ∧
    (FormOf .lit .litX (.lit 32) 1 32 ∧ (filled [0x00#8, 9#8] 65534).outLen + 1 ≤ Config.outMax ∧
      (filled [0x00#8, 9#8] 65534).Present 1 1) :=
  ⟨⟨.inl ⟨rfl, rfl, by decide⟩, by rw [filled_outLen]; decide⟩,
    ⟨.inr ⟨rfl, rfl, by decide⟩, by decide, firstMissing_zero rfl⟩,
    ⟨.inl ⟨rfl, rfl, by decide⟩, firstMissing_one (b := 9#8) rfl rfl⟩,
    .inl ⟨rfl, rfl, by decide⟩, by rw [filled_outLen]; decide, .one (b := 9#8) rfl⟩

theorem witness_RunByteCommand :
    (FormOf .runb .runbX (.runb 1) 1 1 ∧ Config.outMax < (filled [0x20#8] 65535).outLen + 1) ∧
    (FormOf .runb .runbX (.runbX 1024) 2 1024 ∧ (machine [0xE7#8, 0xFF#8]).outLen + 1024 ≤ Config.outMax ∧
      (machine [0xE7#8, 0xFF#8]).srcByte 2 = none) ∧
    ((filled [0x20#8, 9#8] 65534).outLen + 1 ≤ Config.outMax ∧ (filled [0x20#8, 9#8] 65534).srcByte 1 = some 9#8) :=
  ⟨⟨.inl ⟨rfl, rfl, by decide⟩, by rw [filled_outLen]; decide⟩, ⟨.inr ⟨rfl, rfl, by decide⟩, by decide, rfl⟩,
    by rw [filled_outLen]; decide, rfl⟩

theorem witness_RunWordCommand :
    (FormOf .runw .runwX (.runw 1) 1 1 ∧ Config.outMax < (filled [0x40#8] 65534).outLen + 2 * 1) ∧
    (FormOf .runw .runwX (.runwX 1024) 2 1024 ∧ (machine [0xEB#8, 0xFF#8, 9#8]).outLen + 2 * 1024 ≤ Config.outMax ∧
      (machine [0xEB#8, 0xFF#8, 9#8]).FirstMissing 2 1) ∧
    (machine [0x40#8]).FirstMissing 1 0 ∧
    ((filled [0x40#8, 9#8, 8#8] 65533).outLen + 2 * 1 ≤ Config.outMax ∧
      (filled [0x40#8, 9#8, 8#8] 65533).srcByte 1 = some 9#8 ∧
      (filled [0x40#8, 9#8, 8#8] 65533).srcByte (1 + 1) = some 8#8) :=
  ⟨⟨.inl ⟨rfl, rfl, by decide⟩, by rw [filled_outLen]; decide⟩,
    ⟨.inr ⟨rfl, rfl, by decide⟩, by decide, firstMissing_one (b := 9#8) rfl rfl⟩, firstMissing_zero rfl,
    by rw [filled_outLen]; decide, rfl, rfl⟩

theorem witness_RunIncrementCommand :
    (FormOf .runi .runiX (.runi 1) 1 1 ∧ Config.outMax < (filled [0x60#8] 65535).outLen + 1) ∧
    (FormOf .runi .runiX (.runiX 1024) 2 1024 ∧ (machine [0xEF#8, 0xFF#8]).outLen + 1024 ≤ Config.outMax ∧
      (machine [0xEF#8, 0xFF#8]).srcByte 2 = none) ∧
    ((filled [0x60#8, 9#8] 65534).outLen + 1 ≤ Config.outMax ∧ (filled [0x60#8, 9#8] 65534).srcByte 1 = some 9#8) :=
  ⟨⟨.inl ⟨rfl, rfl, by decide⟩, by rw [filled_outLen]; decide⟩, ⟨.inr ⟨rfl, rfl, by decide⟩, by decide, rfl⟩,
    by rw [filled_outLen]; decide, rfl⟩

/-- `off + length` one above `out_len`, and exactly `out_len`. -/
theorem witness_BackRefCommand :
    (FormOf .bref .brefX (.bref 1) 1 1 ∧ Config.outMax < (filled [0x80#8] 65535).outLen + 1) ∧
    (FormOf .bref .brefX (.brefX 1024) 2 1024 ∧ (machine [0xF3#8, 0xFF#8, 9#8]).outLen + 1024 ≤ Config.outMax ∧
      (machine [0xF3#8, 0xFF#8, 9#8]).FirstMissing 2 1) ∧
    ((machine [0x80#8, 0#8, 1#8] [5#8]).srcByte 1 = some 0#8 ∧ (machine [0x80#8, 0#8, 1#8] [5#8]).srcByte 2 = some 1#8 ∧
      (machine [0x80#8, 0#8, 1#8] [5#8]).outLen < 0 * 256 + 1 + 1) ∧
    ((machine [0x80#8, 0#8, 0#8] [5#8]).srcByte 1 = some 0#8 ∧ (machine [0x80#8, 0#8, 0#8] [5#8]).srcByte 2 = some 0#8 ∧
      0 * 256 + 0 + 1 ≤ (machine [0x80#8, 0#8, 0#8] [5#8]).outLen) :=
  ⟨⟨.inl ⟨rfl, rfl, by decide⟩, by rw [filled_outLen]; decide⟩,
    ⟨.inr ⟨rfl, rfl, by decide⟩, by decide, firstMissing_one (b := 9#8) rfl rfl⟩, ⟨rfl, rfl, by decide⟩,
    rfl, rfl, by decide⟩

theorem witness_MirrorBackRefCommand :
    (FormOf .mref .mrefX (.mref 1) 1 1 ∧ Config.outMax < (filled [0xA0#8] 65535).outLen + 1) ∧
    (FormOf .mref .mrefX (.mrefX 1024) 2 1024 ∧ (machine [0xF7#8, 0xFF#8]).outLen + 1024 ≤ Config.outMax ∧
      (machine [0xF7#8, 0xFF#8]).FirstMissing 2 0) ∧
    ((machine [0xA0#8, 0#8, 1#8] [5#8]).srcByte 1 = some 0#8 ∧ (machine [0xA0#8, 0#8, 1#8] [5#8]).srcByte 2 = some 1#8 ∧
      (machine [0xA0#8, 0#8, 1#8] [5#8]).outLen < 0 * 256 + 1 + 1) ∧
    ((machine [0xA0#8, 0#8, 0#8] [5#8]).srcByte 1 = some 0#8 ∧ (machine [0xA0#8, 0#8, 0#8] [5#8]).srcByte 2 = some 0#8 ∧
      0 * 256 + 0 + 1 ≤ (machine [0xA0#8, 0#8, 0#8] [5#8]).outLen ∧
      (machine [0xA0#8, 0#8, 0#8] [5#8]).outByte 0 = some 5#8) :=
  ⟨⟨.inl ⟨rfl, rfl, by decide⟩, by rw [filled_outLen]; decide⟩,
    ⟨.inr ⟨rfl, rfl, by decide⟩, by decide, firstMissing_zero rfl⟩, ⟨rfl, rfl, by decide⟩,
    rfl, rfl, by decide, rfl⟩

/-- `off = out_len`; `off - length + 1 = -1`; and both checks passed with `off = out_len - 1 = length - 1`. -/
theorem witness_ReverseBackRefCommand :
    (FormOf .rref .rrefX (.rref 1) 1 1 ∧ Config.outMax < (filled [0xC0#8] 65535).outLen + 1) ∧
    (FormOf .rref .rrefX (.rrefX 1024) 2 1024 ∧ (machine [0xFB#8, 0xFF#8, 9#8]).outLen + 1024 ≤ Config.outMax ∧
      (machine [0xFB#8, 0xFF#8, 9#8]).FirstMissing 2 1) ∧
    ((machine [0xC0#8, 0#8, 1#8] [5#8]).srcByte 2 = some 1#8 ∧ (machine [0xC0#8, 0#8, 1#8] [5#8]).outLen ≤ 0 * 256 + 1) ∧
    ((machine [0xC1#8, 0#8, 0#8] [5#8]).srcByte 2 = some 0#8 ∧ ((0 * 256 + 0 : Nat) : Int) - (2 : Nat) + 1 < 0) ∧
    ((machine [0xC0#8, 0#8, 0#8] [5#8]).srcByte 1 = some 0#8 ∧ (machine [0xC0#8, 0#8, 0#8] [5#8]).srcByte 2 = some 0#8 ∧
      0 * 256 + 0 < (machine [0xC0#8, 0#8, 0#8] [5#8]).outLen ∧ 0 ≤ ((0 * 256 + 0 : Nat) : Int) - (1 : Nat) + 1) :=
  ⟨⟨.inl ⟨rfl, rfl, by decide⟩, by rw [filled_outLen]; decide⟩,
    ⟨.inr ⟨rfl, rfl, by decide⟩, by decide, firstMissing_one (b := 9#8) rfl rfl⟩, ⟨rfl, by decide⟩, ⟨rfl, by decide⟩,
    rfl, rfl, by decide, by decide⟩

theorem witness_EndCommand : (machine [0xFF#8]).state = .reading ∧ (machine [0xFF#8]).srcByte 0 = some 0xFF#8 ∧
    (machine []).state = .reading ∧ (machine []).srcByte 0 = none := by decide

theorem witness_UnknownCommandRaised :
    ((machine [0xFC#8, 1#8]).srcByte 0 = some 0xFC#8 ∧ (machine [0xFC#8, 1#8]).srcByte 1 = some 1#8) ∧
    ((machine [0xFE#8]).srcByte 0 = some 0xFE#8 ∧ (machine [0xFE#8]).srcByte 1 = none) ∧
    (machine [0xFC#8, 1#8]).state = .reading ∧ (machine [0xFC#8, 1#8]).err = .none ∧
    (nextState? (step (machine [0xFC#8, 1#8]))).map (fun t => t.err) = some .unknownCommand := by decide

/-- One that fits and one that is one byte too long, a pair among them. -/
theorem witness_OutputCeiling :
    (∃ t, (machine [0x20#8, 5#8]).HeaderAt (.runb 1) ∧ step (machine [0x20#8, 5#8]) = .next t) ∧
    (∃ t, (filled [0x20#8] 65535).HeaderAt (.runb 1) ∧ step (filled [0x20#8] 65535) = .next t) ∧
    (∃ t, (filled [0x40#8] 65534).HeaderAt (.runw 1) ∧ step (filled [0x40#8] 65534) = .next t) :=
  ⟨⟨_, headerAt_one (h0 := 0x20#8) rfl rfl, rfl⟩,
    ⟨_, headerAt_one (h0 := 0x20#8) rfl rfl, filled_overflows (i := .runb 1) rfl rfl (by decide)⟩,
    ⟨_, headerAt_one (h0 := 0x40#8) rfl rfl, filled_overflows (i := .runw 1) rfl rfl (by decide)⟩⟩

theorem witness_FormsAgree : TwoForms .lit .litX ∧ ShortLength 2 ∧
    (∀ j < 2, (machine [0x01#8, 7#8, 8#8]).srcByte (0 + 1 + j) = (machine [0xE0#8, 1#8, 7#8, 8#8]).srcByte (0 + 2 + j)) ∧
    (∃ t v, exec (.lit 2) (machine [0x01#8, 7#8, 8#8]) = .next t ∧
      exec (.litX 2) (machine [0xE0#8, 1#8, 7#8, 8#8]) = .next v ∧ t.err = .none) :=
  ⟨.lit, by decide, by decide, _, _, rfl, rfl, rfl⟩

/-! ### Frames and the step -/

theorem witness_FrameOfDataCommands :
    (∃ t, (Instr.runb 1).dataBearing = true ∧ exec (.runb 1) (machine [0x20#8, 5#8]) = .next t ∧ t.err = .none) ∧
    (Instr.bref 1).dataBearing = true ∧ (∃ t, exec (.bref 1) (machine [0x80#8, 0#8, 0#8]) = .next t ∧
      t.err = .backReferenceOutOfRange) := ⟨⟨_, rfl, rfl, rfl⟩, rfl, exists_next (by decide)⟩
theorem witness_FrameOfEndAndIllegal :
    (∃ t, Instr.endMark.dataBearing = false ∧ exec .endMark (machine [0xFF#8] [1#8]) = .next t) ∧
    (∃ t, (Instr.illFD 0#8).dataBearing = false ∧ exec (.illFD 0#8) (machine [0xFD#8, 0#8]) = .next t) :=
  ⟨⟨_, rfl, rfl⟩, ⟨_, rfl, rfl⟩⟩
theorem witness_StepRunsDecodedInstruction :
    ((machine [0x82#8, 0#8, 0#8]).state = .reading ∧ (machine [0x82#8, 0#8, 0#8]).HeaderAt (.bref 3)) ∧
    (machine [0xFB#8, 0xFF#8]).HeaderAt (.rrefX 1024) :=
  ⟨⟨rfl, headerAt_one (h0 := 0x82#8) rfl rfl⟩, headerAt_two (h0 := 0xFB#8) (h1 := 0xFF#8) rfl rfl rfl⟩
/-- No first byte; a second byte needed (at both ends of the extended range); one not needed (`DF` and `FF`). -/
theorem witness_HeaderTruncation : (machine []).srcByte 0 = none ∧
    ([0xE0#8, 0xFE#8, 0xDF#8, 0xFF#8].map fun b => (machine [b]).srcByte 1) = [none, none, none, none] ∧
    ([0xE0#8, 0xFE#8, 0xDF#8, 0xFF#8].map fun b : Byte => decide (b &&& 0xE0#8 = 0xE0#8 ∧ b ≠ 0xFF#8)) =
      [true, true, false, false] := by decide
theorem witness_TruncatedInputRaised :
    (∃ t, step (machine []) = .next t ∧ t.err = .truncatedInput) ∧
    (∃ t, step (machine [0xE0#8]) = .next t ∧ t.err = .truncatedInput) ∧
    (∃ t, step (machine [0x20#8]) = .next t ∧ t.err = .truncatedInput) ∧
    (∃ t, step (machine [0x20#8, 1#8]) = .next t ∧ t.err = .none) ∧
    2 ^ (machine []).aw ≤ 65536 := ⟨⟨_, rfl, rfl⟩, ⟨_, rfl, rfl⟩, ⟨_, rfl, rfl⟩, ⟨_, rfl, rfl⟩, by decide⟩
theorem witness_RangeChecksRaise :
    ((machine [0x80#8, 0#8, 0#8]).HeaderAt (.bref 1) ∧ ∃ t, step (machine [0x80#8, 0#8, 0#8]) = .next t ∧
      t.err = .backReferenceOutOfRange) ∧
    ((machine [0x80#8, 0#8, 0#8] [5#8]).HeaderAt (.bref 1) ∧ ∃ t, step (machine [0x80#8, 0#8, 0#8] [5#8]) = .next t ∧
      t.err = .none) :=
  ⟨⟨headerAt_one (h0 := 0x80#8) rfl rfl, exists_next (by decide)⟩,
    headerAt_one (h0 := 0x80#8) rfl rfl, exists_next (by decide)⟩
theorem witness_StepEnabledExactlyInReading : State.reset.state ≠ .reading ∧ (machine []).state = .reading ∧
    (machine []).finish.state ≠ .reading ∧ ((machine []).raise .truncatedInput).state ≠ .reading := by decide
theorem witness_FailureIsPrecise : (machine [0xFC#8, 0#8] [1#8]).state = .reading ∧
    ∃ t, step (machine [0xFC#8, 0#8] [1#8]) = .next t ∧ t.state = .failed := ⟨rfl, _, rfl, rfl⟩
/-- One state for each of the seven tests of R205, a full buffer with its payload missing among them. -/
theorem witness_FirstErrorIsRaised :
    (∃ t, step (machine []) = .next t) ∧ (∃ t, step (machine [0xFF#8]) = .next t) ∧
    (∃ t, step (machine [0xFC#8]) = .next t) ∧ (∃ t, step (machine [0xFC#8, 0#8]) = .next t) ∧
    (∃ t, step (filled [0x20#8] 65535) = .next t) ∧ (∃ t, step (machine [0x20#8]) = .next t) ∧
    (∃ t, step (machine [0x80#8, 0#8, 0#8]) = .next t ∧ t.err = .backReferenceOutOfRange) ∧ (machine []).err = .none :=
  ⟨⟨_, rfl⟩, ⟨_, rfl⟩, ⟨_, rfl⟩, ⟨_, rfl⟩, ⟨_, filled_overflows (i := .runb 1) rfl rfl (by decide)⟩, ⟨_, rfl⟩,
    exists_next (by decide), rfl⟩
theorem witness_PcAdvancesByCommandSize :
    (∃ t, (machine [0x20#8, 5#8]).HeaderAt (.runb 1) ∧ step (machine [0x20#8, 5#8]) = .next t ∧ t.state ≠ .failed) ∧
    (∃ t, (machine [0xFF#8]).HeaderAt .endMark ∧ step (machine [0xFF#8]) = .next t ∧ t.state ≠ .failed) :=
  ⟨⟨_, headerAt_one (h0 := 0x20#8) rfl rfl, rfl, by decide⟩, ⟨_, headerAt_one (h0 := 0xFF#8) rfl rfl, rfl, by decide⟩⟩
theorem witness_OutputIsAppendOnly :
    (∃ t, (machine [0x20#8, 5#8] [1#8]).HeaderAt (.runb 1) ∧ step (machine [0x20#8, 5#8] [1#8]) = .next t ∧
      t.state ≠ .failed) ∧
    (∃ t, (machine [0x20#8] [1#8]).HeaderAt (.runb 1) ∧ step (machine [0x20#8] [1#8]) = .next t ∧ t.state = .failed) :=
  ⟨⟨_, headerAt_one (h0 := 0x20#8) rfl rfl, rfl, by decide⟩, ⟨_, headerAt_one (h0 := 0x20#8) rfl rfl, rfl, rfl⟩⟩
theorem witness_SourceNeverWritten : ∃ t, step (machine [0x20#8, 5#8]) = .next t := ⟨_, rfl⟩
theorem witness_NoWrapAtTopOfSource : 2 ^ (machine []).aw ≤ 65536 ∧
    ({ machine [] with pc := 65536 } : State).state = .reading ∧
    2 ^ ({ machine [] with pc := 65536 } : State).aw ≤ ({ machine [] with pc := 65536 } : State).pc := by decide

/-! ### Invariant, moves and runs -/

theorem witness_ResetMeetsInvariant : 1 ≤ 1 ∧ Memory.wf 1 [(0, 7#8), (1, 8#8)] ∧ 1 < 2 ^ 1 := by decide
theorem witness_StepKeepsInvariant : (machine [0x20#8, 5#8]).Inv ∧ ∃ t, step (machine [0x20#8, 5#8]) = .next t :=
  ⟨machine_inv _ _ (by decide) (by decide), _, rfl⟩
/-- A move of every kind that is accepted in a state with the invariant. -/
theorem witness_EveryMoveKeepsInvariant : (machine [0xFF#8]).Inv ∧ (∃ t, act .decode (machine [0xFF#8]) = .next t) ∧
    (∃ t, act .readPending (machine [0xFF#8]) = .next t) ∧
    (∃ t, act (.hostWrite .startAt 65535) (machine [0xFF#8]) = .next t) ∧
    (∃ t, act (.hostWrite .startAt 65535) (machine [0xFF#8]).finish = .next t ∧ t.pc = 65535) ∧
    (∃ t, act (.place [(65535, 1#8)]) (machine [0xFF#8]).finish = .next t) ∧
    (∃ t, act (.moveCursor 65535) (machine [0xFF#8]) = .next t) ∧
    (∃ t, act (.reset 65535) (machine [0xFF#8]) = .next t) :=
  ⟨machine_inv _ _ (by decide) (by decide), ⟨_, rfl⟩, ⟨_, rfl⟩, ⟨_, rfl⟩, ⟨_, rfl, rfl⟩, ⟨_, rfl⟩, ⟨_, rfl⟩, ⟨_, rfl⟩⟩
theorem witness_StateTransitions :
    (∃ t, act .decode (machine [0xFF#8]) = .next t ∧ t.state = .done) ∧
    (∃ t, act .decode (machine []) = .next t ∧ t.state = .failed) ∧
    (∃ t, act (.reset 0) (machine []) = .next t ∧ t.state = .idle) ∧
    (∃ t, act (.hostWrite .startAt 0) State.reset = .next t ∧ t.state = .reading) ∧
    (∃ t, act (.hostWrite .startCur 0) (machine []).finish = .next t ∧ t.state = .reading) ∧
    (∃ t, act (.reset 0) ((machine []).raise .truncatedInput) = .next t ∧ t.state = .idle) :=
  ⟨⟨_, rfl, rfl⟩, ⟨_, rfl, rfl⟩, ⟨_, rfl, rfl⟩, ⟨_, rfl, rfl⟩, ⟨_, rfl, rfl⟩, ⟨_, rfl, rfl⟩⟩
theorem witness_SourceIsConstantDuringRun : (machine [0xFF#8]).state = .reading ∧
    ∃ t, act .decode (machine [0xFF#8]) = .next t := ⟨rfl, _, rfl⟩
theorem witness_SourceReadsAreContiguous : State.reset.state ≠ .reading ∧ ∃ r, hostStart 7 State.reset = .next r :=
  ⟨by decide, _, rfl⟩
theorem witness_DecodeTerminates : ((machine [0xFF#8]).Inv ∧ (machine [0xFF#8]).state = .reading) ∧
    ((machine [0xFF#8]).Inv → (machine [0xFF#8]).finish.state ≠ .reading) ∧
    ∃ r, hostStart 0 (machine [0xFF#8]).finish = .next r :=
  ⟨⟨machine_inv _ _ (by decide) (by decide), rfl⟩, fun _ => by decide, _, rfl⟩
/-- Two machines that differ in the buffer and in `pc`. -/
theorem witness_DecodeIsDeterministic :
    (machine [0xFF#8] [1#8]).finish.src = (machine [0xFF#8]).finish.src ∧
    (machine [0xFF#8] [1#8]).finish.state ≠ .reading ∧
    (∃ r, hostStart 0 (machine [0xFF#8] [1#8]).finish = .next r) ∧ ∃ v, hostStart 0 (machine [0xFF#8]).finish = .next v :=
  ⟨rfl, by decide, ⟨_, rfl⟩, _, rfl⟩
theorem witness_HostReceivesResult :
    ((machine [0xFF#8] [1#8]).Inv ∧ ∃ t, step (machine [0xFF#8] [1#8]) = .next t ∧ t.state = .done ∧ 0 + 1 < 2 ^ t.aw ∧
      (0#16).toNat < t.outLen ∧ t.outLen ≤ (1#16).toNat) ∧
    ((machine [0x20#8] [1#8]).Inv ∧ ∃ t, step (machine [0x20#8] [1#8]) = .next t ∧ t.state = .failed ∧ 0 < 2 ^ t.aw) :=
  ⟨⟨machine_inv _ _ (by decide) (by decide), _, rfl, rfl, by decide, by decide, by decide⟩,
    machine_inv _ _ (by decide) (by decide), _, rfl, rfl, by decide⟩
theorem witness_DoneIsStable : (machine [0xFF#8]).finish.state = .done ∧ (Event.moveCursor 1).startsOrResets = false ∧
    ∃ t, act (.moveCursor 1) (machine [0xFF#8]).finish = .next t := ⟨rfl, rfl, _, rfl⟩

/-! ### Back-references -/

theorem witness_BitReversal : 7 < 8 ∧ rev8 0x12#8 = rev8 0x12#8 := by decide
/-- The range that ends at the last byte produced, and the walk down to index 0. -/
theorem witness_CopyOrderDoesNotMatter : 1 + 2 ≤ (machine [] [1#8, 2#8, 3#8]).outLen ∧
    2 < (machine [] [1#8, 2#8, 3#8]).outLen ∧ 3 ≤ 2 + 1 := by decide
theorem witness_LastOffsetNeverPasses :
    ((Instr.rref 1).backReference = true ∧ (Instr.rref 1).wellFormed = true ∧ (machine [0xC0#8, 0xFF#8, 0xFF#8] [1#8]).Inv ∧
      (∃ t, exec (.rref 1) (machine [0xC0#8, 0xFF#8, 0xFF#8] [1#8]) = .next t ∧ t.state = .failed) ∧
      (machine [0xC0#8, 0xFF#8, 0xFF#8] [1#8]).offsetAt 1 = some 65535) ∧
    (∃ t, exec (.bref 1) (machine [0x80#8, 0#8, 0#8] [1#8]) = .next t ∧ t.state = .reading) ∧
      Instr.bref 1 ∈ [Instr.bref 1, .brefX 1, .mref 1, .mrefX 1] ∧
      (machine [0x80#8, 0#8, 0#8] [1#8]).offsetAt 1 = some 0 :=
  ⟨⟨rfl, rfl, machine_inv _ _ (by decide) (by decide), exists_next (by decide), by decide⟩, exists_next (by decide),
    by decide, by decide⟩

/-! ### Host and reset -/

theorem witness_StartBeginsDecode : 2 ^ 32 - 1 < 2 ^ State.reset.aw ∧ State.reset.state ≠ .reading ∧
    (machine []).finish.state ≠ .reading ∧ ((machine []).raise .outputOverflow).state ≠ .reading := by decide
theorem witness_StartAtCursorSamplesCursor : State.reset.srcCursor < 2 ^ State.reset.aw ∧
    State.reset.state ≠ .reading := by decide
theorem witness_StartWhileReadingIsIgnored : (machine []).state = .reading ∧ 65535 < 2 ^ (machine []).aw ∧
    (machine []).srcCursor < 2 ^ (machine []).aw := by decide
theorem witness_HostRegisters : (machine []).Inv ∧ ({ machine [] with pc := 65535 } : State).pc <
    2 ^ ({ machine [] with pc := 65535 } : State).aw := ⟨machine_inv _ _ (by decide) (by decide), by decide⟩
/-- The last byte of the result, one beyond it, and a state that is not `Done`. -/
theorem witness_OutReadPort : ((machine [] [1#8, 2#8]).finish.state = .done ∧ (1#16).toNat < (machine [] [1#8, 2#8]).finish.outLen) ∧
    ¬ (2#16).toNat < (machine [] [1#8, 2#8]).finish.outLen ∧ (machine [] [1#8, 2#8]).state ≠ .done := by decide
theorem witness_ResetEvent : 65535 < 2 ^ (machine []).aw ∧ ∃ t, act (.reset 65535) (machine []) = .next t :=
  ⟨by decide, _, rfl⟩
theorem witness_PendingReadChangesNothing : (machine []).state = .reading ∧ (machine []).finish.state ≠ .reading := by
  decide

/-! ### The source port -/

theorem witness_SourcePortRefinesStep : ∃ t, step (machine [0x20#8, 5#8]) = .next t := ⟨_, rfl⟩
/-- One transaction into the two of an illegal header. -/
theorem witness_CommandsAreAtomic : (machine [0xFC#8, 0#8]).state = .reading ∧
    (∃ r, step (machine [0xFC#8, 0#8]) = .next r) ∧
    (∀ j ≤ 1, ∃ n, portTicks j (atBoundary (machine [0xFC#8, 0#8])) = some n ∧ (j = 0 ∨ n.phase ≠ .boundary)) ∧
    ∃ m, portTicks 1 (atBoundary (machine [0xFC#8, 0#8])) = some m := by
  refine ⟨rfl, ⟨_, rfl⟩, fun j hj => ?_, _, rfl⟩
  have : j = 0 ∨ j = 1 := by omega
  rcases this with rfl | rfl
  · exact ⟨_, rfl, .inl rfl⟩
  · exact ⟨_, rfl, .inr (by decide)⟩

end Sys2Proof.Machine
end

/-! ## The state of the decoder: what a step and a move can do to it (spec/10_state.md) -/

namespace Sys2Proof.Machine

/-! ### A header at pc and the instruction it stands for -/

/-- What decodes begins with a whole header, or with the two bytes of an extended one. -/
theorem decode_ok_cases {bytes rest : List Byte} {i : Instr} (h : decode bytes = .ok (i, rest)) :
    (∃ h0, bytes = h0 :: rest ∧ classifyFirst h0 = .whole i) ∨
    (∃ h0 h1, bytes = h0 :: h1 :: rest ∧ classifyFirst h0 = .extended ∧ i = decodeExtended h0 h1) := by
  match bytes with
  | [] => simp [decode] at h
  | h0 :: tail =>
    cases hc : classifyFirst h0 with
    | whole j =>
      rw [decode_whole hc] at h
      cases h
      exact .inl ⟨h0, rfl, hc⟩
    | extended =>
      match tail with
      | [] => simp [decode, hc] at h
      | h1 :: tail =>
        rw [decode_extended hc] at h
        cases h
        exact .inr ⟨h0, h1, rfl, hc, rfl⟩

theorem State.HeaderAt.cases {s : State} {i : Instr} (h : s.HeaderAt i) :
    (∃ h0, s.srcByte s.pc = some h0 ∧ classifyFirst h0 = .whole i) ∨
    (∃ h0 h1, s.srcByte s.pc = some h0 ∧ s.srcByte (s.pc + 1) = some h1 ∧ classifyFirst h0 = .extended ∧
      i = decodeExtended h0 h1) := by
  obtain ⟨header, hd, hh⟩ := h
  rcases decode_ok_cases hd with ⟨h0, rfl, hc⟩ | ⟨h0, h1, rfl, hc, hi⟩
  · exact .inl ⟨h0, hh 0 (by simp), hc⟩
  · exact .inr ⟨h0, h1, hh 0 (by simp), hh 1 (by simp), hc, hi⟩

/-- With the header of `i` at `pc` the step is `exec i`, the header's transactions recorded (R110, R111). -/
theorem step_of_headerAt {s : State} {i : Instr} (hr : s.state = .reading) (h : s.HeaderAt i) :
    step s = exec i (s.noteReads (List.range' s.pc i.headerSize)) := by
  have fetch : step s = fetchHeader s exec := by rw [step, hr]
  rw [fetch, fetchHeader]
  rcases h.cases with ⟨h0, hb, hc⟩ | ⟨h0, h1, hb, hb1, hc, rfl⟩
  · rw [readU8_some hb, classifyFirst_headerSize hc]
    simp only [hc]
    rfl
  · have hb1' : (s.noteReads [s.pc]).srcByte (s.pc + 1) = some h1 := hb1
    rw [readU8_some hb, decodeExtended_headerSize hc]
    simp only [hc]
    rw [readU8_some hb1', State.noteReads_noteReads]
    rfl

/-- An instruction that does not fail is `END`, or a data-bearing command that appended its bytes (R117, R180). -/
theorem exec_completes {i : Instr} {s t : State} (h : exec i s = .next t) (hf : t.state ≠ .failed) :
    (i = .endMark ∧ t = s.finish) ∨
    (i.dataBearing = true ∧ ∃ v : List Byte, v.length = i.appendCount ∧
      t = { s with
        out := s.out ++ v
        pc := s.pc + i.totalSize
        reads := s.reads ++ List.range' (s.pc + i.headerSize) i.payloadSize }) := by
  rcases exec_cases i s with ⟨hi, hx⟩ | ⟨_, hx⟩ | ⟨_, _, hx⟩ | ⟨_, _, _, _, _, hx⟩ | ⟨_, _, _, _, hx⟩ |
    ⟨hd, _, _, v, _, hv, hx⟩ <;> rw [hx] at h <;> cases h
  any_goals exact absurd rfl hf
  · exact .inl ⟨hi, rfl⟩
  · exact .inr ⟨hd, v, hv, rfl⟩

/-- Settles O28: with the header at `pc` the step is `exec i`, and what does not fail is `END`, whose only byte is the
header, or a data-bearing command, whose payload transactions continue those of its header. -/
theorem pcAdvancesByCommandSize : Obligations.PcAdvancesByCommandSize := by
  intro s t i hr hh hs hf
  rw [step_of_headerAt hr hh] at hs
  rcases exec_completes hs hf with ⟨rfl, rfl⟩ | ⟨_, v, _, rfl⟩
  · exact ⟨rfl, rfl⟩
  · refine ⟨rfl, ?_⟩
    simp [Instr.totalSize]

/-! ### The three outcomes of a step -/

/-- Every command has at least its first header byte (R80). -/
theorem one_le_totalSize (i : Instr) : 1 ≤ i.totalSize := by
  have hheader : 1 ≤ i.headerSize := by cases i <;> simp [Instr.headerSize]
  exact Nat.le_add_right_of_le hheader

/-- A step fails, ends the decode, or completes a data-bearing command: `StepResult` with its failures as one case. -/
theorem StepResult.outcome {s t : State} (h : StepResult s t) :
    (∃ e issued, e ≠ .none ∧ t = s.failedAfter e issued) ∨
    (s.srcByte s.pc = some 0xFF#8 ∧
      t = { s with pc := s.pc + 1, state := .done, reads := s.reads ++ [s.pc] }) ∨
    (∃ (i : Instr) (v : List Byte), s.Present s.pc i.totalSize ∧ s.outLen + v.length ≤ Config.outMax ∧
      t = { s with out := s.out ++ v, pc := s.pc + i.totalSize,
                   reads := s.reads ++ List.range' s.pc i.totalSize }) := by
  cases h with
  | headerTruncated _ _ _ next | payloadTruncated _ _ _ _ _ _ _ next => exact .inl ⟨_, _, by simp, next⟩
  | unknown _ _ _ next => exact .inl ⟨_, _, by simp, next⟩
  | overflowed _ _ _ _ next => exact .inl ⟨_, _, by simp, next⟩
  | outOfRange _ _ _ _ _ next => exact .inl ⟨_, _, by simp, next⟩
  | ended byte next => exact .inr (.inl ⟨byte, next⟩)
  | completed i v _ data bytes fits _ len next =>
    refine .inr (.inr ⟨i, v, bytes, ?_, next⟩)
    rw [len]
    exact Nat.le_of_not_lt fun tooMany => fits ⟨data, tooMany⟩

theorem step_reading {s t : State} (h : step s = .next t) : s.state = .reading := by
  by_contra hn
  rw [step_not_reading hn] at h
  cases h

/-! ### The invariant (R40, R57) and the updates of the state -/

theorem State.Inv.err_none_of_reading {s : State} (h : s.Inv) (hr : s.state = .reading) : s.err = .none :=
  h.err_iff.mpr (by simp [hr])

/-- The state after reset meets the invariant (R39), with any record of transactions. -/
theorem inv_resetWith {aw : Nat} {src : List Host.Cell} {cursor pc : Nat} (haw : 1 ≤ aw) (hsrc : Memory.wf aw src)
    (hcursor : cursor < 2 ^ aw) (hpc : pc < 2 ^ aw) (reads : List Nat) :
    ({ State.resetWith aw src cursor pc with reads := reads } : State).Inv where
  aw_pos := haw
  src_wf := hsrc
  cursor_lt := hcursor
  pc_le := Nat.le_of_lt hpc
  outLen_le := Nat.zero_le _
  err_iff := by simp
  failed_empty := fun _ => rfl
  idle_empty := fun _ => ⟨rfl, rfl⟩

theorem State.Inv.failedAfter {s : State} (h : s.Inv) {e : ErrKind} (he : e ≠ .none) (issued : List Nat) :
    (s.failedAfter e issued).Inv :=
  { h with
    outLen_le := Nat.zero_le _
    err_iff := by simp [he]
    failed_empty := fun _ => rfl
    idle_empty := by simp }

theorem State.Inv.ended {s : State} (h : s.Inv) (hr : s.state = .reading) (hpc : s.pc + 1 ≤ 2 ^ s.aw)
    (reads : List Nat) : ({ s with pc := s.pc + 1, state := .done, reads := reads } : State).Inv :=
  { h with
    pc_le := hpc
    err_iff := by simp [h.err_none_of_reading hr]
    failed_empty := by simp
    idle_empty := by simp }

theorem State.Inv.completed {s : State} (h : s.Inv) (hr : s.state = .reading) {v : List Byte} {pc : Nat}
    (hv : s.outLen + v.length ≤ Config.outMax) (hpc : pc ≤ 2 ^ s.aw) (reads : List Nat) :
    ({ s with out := s.out ++ v, pc := pc, reads := reads } : State).Inv :=
  { h with
    pc_le := hpc
    outLen_le := by simpa [State.outLen] using hv
    failed_empty := by simp [hr]
    idle_empty := by simp [hr] }

theorem State.Inv.beginDecode {s : State} (h : s.Inv) {a : Nat} (ha : a < 2 ^ s.aw) : (s.beginDecode a).Inv :=
  { h with
    pc_le := Nat.le_of_lt ha
    outLen_le := Nat.zero_le _
    err_iff := by simp
    failed_empty := by simp
    idle_empty := by simp }

theorem State.Inv.stepResult {s t : State} (h : s.Inv) (hr : s.state = .reading) (ht : StepResult s t) : t.Inv := by
  rcases ht.outcome with ⟨e, issued, he, rfl⟩ | ⟨hb, rfl⟩ | ⟨i, v, hp, hv, rfl⟩
  · exact h.failedAfter he issued
  · exact h.ended hr (State.lt_top_of_srcByte hb) _
  · exact h.completed hr hv (hp.top (one_le_totalSize i)) _

/-- Settles O33: failure entry, `END` and completion each keep the invariant; the bytes a step has read end inside the
source space, which bounds `pc`, and the ceiling check bounds `out_len`. -/
theorem stepKeepsInvariant : Obligations.StepKeepsInvariant := fun _ _ hi hs =>
  hi.stepResult (step_reading hs) (step_result (step_reading hs) hs)

/-- Settles O32: the invariant of `State.resetWith`, and `State.reset` as one case of it. -/
theorem resetMeetsInvariant : Obligations.ResetMeetsInvariant :=
  ⟨fun _ _ _ _ haw hsrc hcursor hpc => inv_resetWith haw hsrc hcursor hpc [],
    inv_resetWith (by decide) (Memory.wf_nil _) (by decide) (by decide) []⟩

/-! ### The moves of host and platform -/

/-- An accepted start begins a decode, one in `Reading` changes nothing (R182, R184). -/
theorem hostStart_cases {a : Nat} {s t : State} (h : hostStart a s = .next t) :
    t = s ∨ (a < 2 ^ s.aw ∧ s.state ≠ .reading ∧ t = s.beginDecode a) := by
  unfold hostStart at h
  split at h
  · cases h
  · rename_i ha
    cases hs : s.state with
    | reading =>
      rw [hs] at h
      cases h
      exact .inl rfl
    | idle | done | failed =>
      rw [hs] at h
      cases h
      exact .inr ⟨Nat.lt_of_not_le ha, by simp, rfl⟩

theorem hostReset_next {pc : Nat} {s t : State} (h : hostReset pc s = .next t) :
    pc < 2 ^ s.aw ∧ t = { State.resetWith s.aw s.src s.srcCursor pc with reads := s.reads } := by
  unfold hostReset at h
  split at h
  · cases h
  · rename_i hpc
    cases h
    exact ⟨Nat.lt_of_not_le hpc, rfl⟩

theorem placeSource_next {src : List Host.Cell} {s t : State} (h : placeSource src s = .next t) :
    s.state ≠ .reading ∧ Memory.wf s.aw src ∧ t = { s with src := src } := by
  unfold placeSource at h
  cases hs : s.state with
  | reading =>
    rw [hs] at h
    cases h
  | idle | done | failed =>
    rw [hs] at h
    dsimp only at h
    split at h
    · rename_i hwf
      cases h
      exact ⟨by simp, hwf, rfl⟩
    · cases h

theorem setCursor_next {a : Nat} {s t : State} (h : setCursor a s = .next t) :
    a < 2 ^ s.aw ∧ t = { s with srcCursor := a } := by
  unfold setCursor at h
  split at h
  · cases h
  · rename_i ha
    cases h
    exact ⟨Nat.lt_of_not_le ha, rfl⟩

theorem waitForSource_next {s t : State} (h : waitForSource s = .next t) : t = s := by
  unfold waitForSource at h
  cases hs : s.state <;> rw [hs] at h <;> cases h
  rfl

/-- Everything a move from `s` to `t` can be. -/
inductive MoveResult (s t : State) : Event → Prop where
  | decoded (reading : s.state = .reading) (result : StepResult s t) : MoveResult s t .decode
  | unchanged (e : Event) (notDecode : e ≠ .decode) (next : t = s) : MoveResult s t e
  | started (r : HostReg) (v a : Nat) (register : r = .startAt ∧ a = v ∨ r = .startCur ∧ a = s.srcCursor)
      (fits : a < 2 ^ s.aw) (notReading : s.state ≠ .reading) (next : t = s.beginDecode a) :
      MoveResult s t (.hostWrite r v)
  | placed (src : List Host.Cell) (notReading : s.state ≠ .reading) (wf : Memory.wf s.aw src)
      (next : t = { s with src := src }) : MoveResult s t (.place src)
  | cursorMoved (a : Nat) (fits : a < 2 ^ s.aw) (next : t = { s with srcCursor := a }) :
      MoveResult s t (.moveCursor a)
  | wasReset (pc : Nat) (fits : pc < 2 ^ s.aw)
      (next : t = { State.resetWith s.aw s.src s.srcCursor pc with reads := s.reads }) : MoveResult s t (.reset pc)

theorem MoveResult.of_hostWrite {r : HostReg} {v : Nat} {s t : State} (h : hostWrite r v s = .next t) :
    MoveResult s t (.hostWrite r v) := by
  cases r with
  | startAt =>
    rcases hostStart_cases h with next | ⟨fits, notReading, next⟩
    · exact .unchanged _ (by simp) next
    · exact .started _ v v (.inl ⟨rfl, rfl⟩) fits notReading next
  | startCur =>
    rcases hostStart_cases (a := s.srcCursor) h with next | ⟨fits, notReading, next⟩
    · exact .unchanged _ (by simp) next
    · exact .started _ v _ (.inr ⟨rfl, rfl⟩) fits notReading next
  | status | outLen | srcAddr =>
    cases h
    exact .unchanged _ (by simp) rfl

/-- The inversion of a move: later proofs split these cases and never unfold `act`. -/
theorem act_result {e : Event} {s t : State} (h : act e s = .next t) : MoveResult s t e := by
  cases e with
  | decode => exact .decoded (step_reading h) (step_result (step_reading h) h)
  | readPending => exact .unchanged _ (by simp) (waitForSource_next h)
  | hostWrite r v => exact .of_hostWrite h
  | hostRead _ | outRead _ =>
    cases h
    exact .unchanged _ (by simp) rfl
  | place src =>
    obtain ⟨notReading, wf, next⟩ := placeSource_next h
    exact .placed src notReading wf next
  | moveCursor a =>
    obtain ⟨fits, next⟩ := setCursor_next h
    exact .cursorMoved a fits next
  | reset pc =>
    obtain ⟨fits, next⟩ := hostReset_next h
    exact .wasReset pc fits next

/-- Settles O34: the decoder's move by the step's case, a start and reset because their address fits in AW bits, and
the platform's moves because each writes one field with a value that meets its own clause. -/
theorem everyMoveKeepsInvariant : Obligations.EveryMoveKeepsInvariant := by
  intro e s t hi h
  cases act_result h with
  | decoded reading result => exact hi.stepResult reading result
  | unchanged _ _ next => exact next ▸ hi
  | started r v a _ fits _ next => exact next ▸ hi.beginDecode fits
  | placed src _ wf next => exact next ▸ { hi with src_wf := wf }
  | cursorMoved a fits next => exact next ▸ { hi with cursor_lt := fits }
  | wasReset pc fits next => exact next ▸ inv_resetWith hi.aw_pos hi.src_wf hi.cursor_lt fits s.reads

/-- Settles O35: of the moves, only a step, an accepted start and reset write `state`; a step that leaves `Reading`
failed or read the `End` byte. -/
theorem stateTransitions : Obligations.StateTransitions := by
  intro e s t h hne
  cases act_result h with
  | decoded reading result =>
    refine ⟨fun _ => ?_, fun hn => absurd reading hn⟩
    rcases result.outcome with ⟨err, issued, _, rfl⟩ | ⟨hb, rfl⟩ | ⟨i, v, _, _, rfl⟩
    · exact .inr (.inl ⟨rfl, rfl⟩)
    · exact .inl ⟨rfl, rfl, hb⟩
    · exact absurd rfl hne
  | started r v a register _ notReading next =>
    refine ⟨fun hr => absurd hr notReading, fun _ => .inl ⟨?_, by rw [next]; rfl⟩⟩
    rcases register with ⟨rfl, _⟩ | ⟨rfl, _⟩
    · exact .inl ⟨v, rfl⟩
    · exact .inr ⟨v, rfl⟩
  | wasReset pc _ next =>
    have idle : t.state = .idle := by rw [next]; rfl
    exact ⟨fun _ => .inr (.inr ⟨pc, rfl, idle⟩), fun _ => .inr ⟨pc, rfl, idle⟩⟩
  | unchanged _ _ next | placed _ _ _ next | cursorMoved _ _ next => exact absurd (by rw [next]) hne

/-! ### What the host reads -/

/-- The two fields of `STATUS` and the number they make (R31). -/
theorem State.statusReg_fields (s : State) :
    s.statusReg.extractLsb' 0 2 = s.state.code ∧ s.statusReg.extractLsb' 2 3 = s.err.code ∧
      s.statusReg.toNat = s.err.code.toNat * 4 + s.state.code.toNat := by
  have fields : ∀ (err : BitVec 3) (state : BitVec 2), (err ++ state).extractLsb' 0 2 = state ∧
      (err ++ state).extractLsb' 2 3 = err ∧ (err ++ state).toNat = err.toNat * 4 + state.toNat := by decide
  exact fields s.err.code s.state.code

/-- `OUT_LEN` is wide enough for every length the invariant allows (R32, R40 (a)). -/
theorem State.Inv.outLenReg_toNat {s : State} (h : s.Inv) : s.outLenReg.toNat = s.outLen :=
  Nat.mod_eq_of_lt (Nat.lt_succ_of_le h.outLen_le)

theorem State.srcAddrReg_eq_pc {s : State} (h : s.pc < 2 ^ s.aw) : s.srcAddrReg = s.pc := if_pos h

/-- Settles O48: the fields of `STATUS`, `OUT_LEN` under the invariant and `SRC_ADDR` below the top by the lemma of
each; codes, inert registers and level outputs by computation. -/
theorem hostRegisters : Obligations.HostRegisters := by
  refine ⟨fun s => ?_, by decide, by decide, fun s hi => congrArg some hi.outLenReg_toNat,
    fun s hpc => congrArg some (State.srcAddrReg_eq_pc hpc), fun _ => ⟨rfl, rfl⟩, fun _ _ => ⟨rfl, rfl, rfl⟩,
    fun s => ⟨beq_iff_eq, beq_iff_eq, beq_iff_eq⟩⟩
  obtain ⟨hstate, herr, hnat⟩ := s.statusReg_fields
  exact ⟨hstate, herr, congrArg some hnat⟩

theorem State.outRd_done {s : State} (h : s.state = .done) (i : BitVec 16) : s.outRd i = s.outByte i.toNat := by
  rw [State.outRd, h]

theorem State.outRd_not_done {s : State} (h : s.state ≠ .done) (i : BitVec 16) : s.outRd i = none := by
  unfold State.outRd
  cases hs : s.state with
  | done => exact absurd hs h
  | idle | reading | failed => rfl

/-- Settles O49: in `Done` the port reads the cell, which holds a value exactly below `out_len`; elsewhere it refuses. -/
theorem outReadPort : Obligations.OutReadPort := by
  intro s i
  refine ⟨fun hd hi => ?_, fun hn => ?_⟩
  · obtain ⟨b, hb⟩ := Option.isSome_iff_exists.mp (State.outByte_isSome.mpr hi)
    exact ⟨b, hb, (State.outRd_done hd i).trans hb⟩
  · by_cases hd : s.state = .done
    · rw [State.outRd_done hd]
      exact List.getElem?_eq_none (Nat.le_of_not_lt fun hi => hn ⟨hd, hi⟩)
    · exact State.outRd_not_done hd i

end Sys2Proof.Machine

/-! ## The source and output spaces: what a step reads, appends and leaves alone (spec/20_memory.md) -/

namespace Sys2Proof.Machine

/-! ### The source side -/

/-- Settles O30: no outcome of a step writes a field of the source side, and `Src(a)` is read from those fields. -/
theorem sourceNeverWritten : Obligations.SourceNeverWritten := by
  intro s t h
  have fields : t.aw = s.aw ∧ t.src = s.src ∧ t.srcCursor = s.srcCursor := by
    rcases (step_result (step_reading h) h).outcome with ⟨_, _, _, rfl⟩ | ⟨_, rfl⟩ | ⟨_, _, _, _, rfl⟩ <;>
      exact ⟨rfl, rfl, rfl⟩
  obtain ⟨haw, hsrc, hcursor⟩ := fields
  exact ⟨haw, hsrc, hcursor, State.srcByte_congr haw hsrc⟩

/-- Beyond the top of the source space an access issues no transaction (R57). -/
theorem State.issuedTo_beyond (s : State) {a : Nat} (h : 2 ^ s.aw ≤ a) : s.issuedTo a 0 = [] := by
  simp [State.issuedTo, Nat.not_lt.mpr h]

/-- Settles O31: the first header byte is exhausted there, so of the ways to fetch a header only its failure is left. -/
theorem noWrapAtTopOfSource : Obligations.NoWrapAtTopOfSource := by
  refine fun s => ⟨fun a => s.srcByte_beyond, fun hr hpc => ?_⟩
  have exhausted := s.srcByte_beyond hpc
  rcases step_cases hr with ⟨_, hs⟩ | ⟨_, _, hb, _⟩ | ⟨_, hb, _⟩ | ⟨_, _, hb, _⟩
  · rw [hs, s.issuedTo_beyond hpc]
  all_goals
    rw [exhausted] at hb
    cases hb

/-- Settles O36: of the moves only `place` writes the content, and it is refused in `Reading`. -/
theorem sourceIsConstantDuringRun : Obligations.SourceIsConstantDuringRun := by
  intro e s hr
  refine ⟨fun t h => ?_, fun src => by simp only [act, placeSource, hr]⟩
  cases act_result h with
  | decoded =>
    obtain ⟨haw, hsrc, _⟩ := sourceNeverWritten s t h
    exact ⟨hsrc, haw⟩
  | placed _ notReading => exact absurd hr notReading
  | unchanged _ _ next | started _ _ _ _ _ _ next | cursorMoved _ _ next | wasReset _ _ next =>
    subst next
    exact ⟨rfl, rfl⟩

/-- Outside `Reading` no source read is outstanding. -/
theorem waitForSource_not_reading {s : State} (h : s.state ≠ .reading) :
    waitForSource s = .refused .noReadOutstanding := by
  unfold waitForSource
  cases hs : s.state with
  | reading => exact absurd hs h
  | idle | done | failed => rfl

/-- Settles O52: in `Reading` the move answers the state itself, elsewhere it is refused. -/
theorem pendingReadChangesNothing : Obligations.PendingReadChangesNothing := by
  refine fun s => ⟨fun hr => by simp only [act, waitForSource, hr], fun hn t h => ?_⟩
  rw [act, waitForSource_not_reading hn] at h
  cases h

/-! ### The output space -/

/-- Settles O29: what does not fail is `END`, which appends nothing, or a command that appended its `appendCount`
bytes; of the outcomes of a step only failure entry leaves `Failed`, with an empty buffer. -/
theorem outputIsAppendOnly : Obligations.OutputIsAppendOnly := by
  intro s t i hr hh hs
  refine ⟨fun hf => ?_, fun hf => ?_⟩
  · rw [step_of_headerAt hr hh] at hs
    rcases exec_completes hs hf with ⟨rfl, rfl⟩ | ⟨_, v, hv, rfl⟩
    · exact ⟨⟨[], List.append_nil _⟩, rfl⟩
    · exact ⟨⟨v, rfl⟩, by simp [State.outLen, hv]⟩
  · rcases (step_result hr hs).outcome with ⟨_, _, _, rfl⟩ | ⟨_, rfl⟩ | ⟨_, _, _, _, rfl⟩
    · rfl
    · cases hf
    · rw [hr] at hf
      cases hf

/-! ### The trace of source reads (R62, R63) -/

/-- Every step reads a contiguous range from `pc` upward, and `pc` ends at the end of that range unless the step fails;
a step that ends the decode read the `End` byte and nothing else. -/
theorem StepResult.reads_from_pc {s t : State} (h : StepResult s t) :
    ∃ n, t.reads = s.reads ++ List.range' s.pc n ∧
      ((t.state = .failed ∧ t.pc = s.pc) ∨
       (t.state = .done ∧ n = 1 ∧ t.pc = s.pc + 1 ∧ s.srcByte s.pc = some 0xFF#8) ∨
       (t.state = s.state ∧ t.pc = s.pc + n)) := by
  cases h with
  | headerTruncated _ _ _ next | payloadTruncated _ _ _ _ _ _ _ next | unknown _ _ _ next | overflowed _ _ _ _ next
  | outOfRange _ _ _ _ _ next =>
    subst next
    exact ⟨_, rfl, .inl ⟨rfl, rfl⟩⟩
  | ended byte next =>
    subst next
    exact ⟨1, rfl, .inr (.inl ⟨rfl, rfl, rfl, byte⟩)⟩
  | completed i _ _ _ _ _ _ _ next =>
    subst next
    exact ⟨_, rfl, .inr (.inr ⟨rfl, rfl⟩)⟩

/-- A step continues the trace where it stood: in `Reading` the next transaction is at `pc`. -/
theorem State.TracedFrom.afterStep {a : Nat} {s t : State} (h : s.TracedFrom a) (hs : step s = .next t) :
    t.TracedFrom a := by
  have hr := step_reading hs
  obtain ⟨m, hreads, hpc, _, _⟩ := h
  replace hpc := hpc hr
  obtain ⟨n, hissued, outcome⟩ := (step_result hr hs).reads_from_pc
  refine ⟨m + n, ?_, ?_⟩
  · rw [hissued, hreads, hpc, List.range'_append_1]
  rcases outcome with ⟨ht, htpc⟩ | ⟨ht, rfl, htpc, hend⟩ | ⟨ht, htpc⟩
  · simp only [ht, reduceCtorEq, false_implies, true_and, forall_const]
    omega
  · have hlast : t.srcByte (a + (m + 1) - 1) = some 0xFF#8 := by
      obtain ⟨_, _, _, hsrc⟩ := sourceNeverWritten s t hs
      rw [hsrc, ← hend, hpc]
      rfl
    simp only [ht, hlast, reduceCtorEq, false_implies, true_and, and_true, forall_const]
    omega
  · simp only [ht, hr, reduceCtorEq, false_implies, and_true, forall_const]
    omega

/-- What every step keeps holds at the end of every run. -/
theorem decodeRun_keeps {P : State → Prop} (keep : ∀ s t, P s → step s = .next t → P t) (k : Nat) {s : State}
    (h : P s) : P (decodeRun k s) := by
  induction k generalizing s with
  | zero => exact h
  | succ k ih =>
    unfold decodeRun
    cases hs : step s with
    | next t => exact ih (keep s t h hs)
    | fault _ | refused _ => exact h

/-- Outside `Reading` a start that is not refused begins a decode (R182). -/
theorem hostStart_accepted {a : Nat} {s r : State} (hn : s.state ≠ .reading) (h : hostStart a s = .next r) :
    r = s.beginDecode a := by
  unfold hostStart at h
  split at h
  · cases h
  · cases hs : s.state with
    | reading => exact absurd hs hn
    | idle | done | failed =>
      rw [hs] at h
      cases h
      rfl

theorem State.beginDecode_tracedFrom (s : State) (a : Nat) : (s.beginDecode a).TracedFrom a :=
  ⟨0, rfl, fun _ => rfl, by simp, by simp⟩

/-- Settles O37: the trace is empty after a start, and each step continues it. -/
theorem sourceReadsAreContiguous : Obligations.SourceReadsAreContiguous := by
  intro a k s r hn h
  rw [hostStart_accepted hn h]
  exact decodeRun_keeps (P := fun u => u.TracedFrom a) (fun _ _ => State.TracedFrom.afterStep) k
    (s.beginDecode_tracedFrom a)

/-! ### One transaction (R53, R62) -/

theorem State.transact_some {s : State} {a : Nat} {b : Byte} (h : s.srcByte a = some b) :
    s.transact a = (s.noteReads [a], some b) := by
  rw [State.transact_eq, h]
  simp [State.issuedTo, State.lt_top_of_srcByte h]

theorem portTick_exhausted {m : PortState} (hr : m.machine.state = .reading)
    (hb : m.machine.srcByte m.address = none) :
    portTick m = some (atBoundary (m.machine.failedAfter .truncatedInput (m.machine.issuedTo m.address 0))) := by
  rw [portTick, if_pos hr, State.transact_eq, hb]
  rfl

theorem portTick_wholeHeader {s : State} {h0 : Byte} {i : Instr} (hr : s.state = .reading)
    (hb : s.srcByte s.pc = some h0) (hc : classifyFirst h0 = .whole i) :
    portTick (atBoundary s) = some (portAfterHeader i (s.noteReads [s.pc])) := by
  simp [portTick, atBoundary, PortState.address, hr, State.transact_some hb, hc]

theorem portTick_extendedHeader {s : State} {h0 : Byte} (hr : s.state = .reading)
    (hb : s.srcByte s.pc = some h0) (hc : classifyFirst h0 = .extended) :
    portTick (atBoundary s) = some ⟨s.noteReads [s.pc], .secondHeader h0⟩ := by
  simp [portTick, atBoundary, PortState.address, hr, State.transact_some hb, hc]

theorem portTick_secondHeader {s : State} {h0 h1 : Byte} (hr : s.state = .reading)
    (hb : s.srcByte (s.pc + 1) = some h1) :
    portTick ⟨s, .secondHeader h0⟩ = some (portAfterHeader (decodeExtended h0 h1) (s.noteReads [s.pc + 1])) := by
  simp [portTick, PortState.address, hr, State.transact_some hb]

theorem portTick_payload {s : State} {i : Instr} {got : List Byte} {b : Byte} (hr : s.state = .reading)
    (hb : s.srcByte (s.pc + i.headerSize + got.length) = some b) (hlt : got.length + 1 < i.payloadSize) :
    portTick ⟨s, .payload i got⟩ =
      some ⟨s.noteReads [s.pc + i.headerSize + got.length], .payload i (got ++ [b])⟩ := by
  simp [portTick, PortState.address, hr, State.transact_some hb, hlt]

theorem portTick_lastPayload {s : State} {i : Instr} {got : List Byte} {b : Byte} (hr : s.state = .reading)
    (hb : s.srcByte (s.pc + i.headerSize + got.length) = some b) (hlast : got.length + 1 = i.payloadSize) :
    portTick ⟨s, .payload i got⟩ =
      some (atBoundary (portFinish i (got ++ [b]) (s.noteReads [s.pc + i.headerSize + got.length]))) := by
  simp [portTick, PortState.address, hr, State.transact_some hb, hlast]

/-! ### Several transactions: the parts of a step (R111) -/

/-- Some number of transactions ends the command in progress, in the state `t`. -/
def PortState.Reaches (m : PortState) (t : State) : Prop := ∃ k, portTicks k m = some (atBoundary t)

theorem PortState.Reaches.refl (t : State) : (atBoundary t).Reaches t := ⟨0, rfl⟩

/-- One transaction in front of others makes their number positive. -/
theorem portTicks_pos_of_tick {m n : PortState} {t : State} (ht : portTick m = some n) (h : n.Reaches t) :
    ∃ k, 1 ≤ k ∧ portTicks k m = some (atBoundary t) := by
  obtain ⟨k, hk⟩ := h
  exact ⟨k + 1, by omega, by rw [portTicks, ht, Option.bind_some, hk]⟩

theorem PortState.Reaches.tick {m n : PortState} {t : State} (ht : portTick m = some n) (h : n.Reaches t) :
    m.Reaches t := by
  obtain ⟨k, _, hk⟩ := portTicks_pos_of_tick ht h
  exact ⟨k, hk⟩

/-- Where the byte to read is exhausted, the transaction ends the command as `MemRead` does. -/
theorem reaches_of_exhausted {m : PortState} {t : State} {n : Nat} {rest : List Byte → State → StepOutcome}
    (hr : m.machine.state = .reading) (hb : m.machine.srcByte m.address = none)
    (h : readBytes m.machine m.address (n + 1) rest = .next t) : m.Reaches t := by
  rw [readBytes, readU8_none hb] at h
  cases h
  exact .tick (portTick_exhausted hr hb) (.refl _)

/-- The payload: what is left to read after `got`, one byte at a time, is `MemRead` of that many bytes. -/
theorem reaches_of_payload {i : Instr} (n : Nat) {s t : State} {got : List Byte} (hr : s.state = .reading)
    (hn : got.length + (n + 1) = i.payloadSize)
    (h : readBytes s (s.pc + i.headerSize + got.length) (n + 1)
      (fun v s' => .next (portFinish i (got ++ v) s')) = .next t) :
    (PortState.mk s (.payload i got)).Reaches t := by
  induction n generalizing s got with
  | zero =>
    cases hb : s.srcByte (s.pc + i.headerSize + got.length) with
    | none => exact reaches_of_exhausted hr hb h
    | some b =>
      rw [readBytes, readU8_some hb, readBytes] at h
      cases h
      exact .tick (portTick_lastPayload hr hb hn) (.refl _)
  | succ n ih =>
    cases hb : s.srcByte (s.pc + i.headerSize + got.length) with
    | none => exact reaches_of_exhausted hr hb h
    | some b =>
      rw [readBytes, readU8_some hb] at h
      refine .tick (portTick_payload hr hb (by omega)) (ih hr ?_ ?_)
      · simp only [List.length_append, List.length_singleton]
        omega
      · simpa [Nat.add_assoc] using h

/-- A well-formed data-bearing command has a payload (R86). -/
theorem one_le_payloadSize {i : Instr} (hw : i.wellFormed = true) (hd : i.dataBearing = true) :
    1 ≤ i.payloadSize := by
  cases i with
  | lit n | litX n => exact (of_decide_eq_true hw).1
  | runb _ | runbX _ | runi _ | runiX _ | runw _ | runwX _ => simp [Instr.payloadSize]
  | bref _ | brefX _ | mref _ | mrefX _ | rref _ | rrefX _ => simp [Instr.payloadSize]
  | endMark | illFC _ | illFD _ | illFE _ => cases hd

theorem not_illegal_of_dataBearing {i : Instr} (hd : i.dataBearing = true) : ¬ i.illegal = true := by
  cases i <;> simp [Instr.dataBearing, Instr.illegal] at *

/-- Of the tests between header and payload, a data-bearing command can only meet the ceiling check (R115). -/
theorem portAfterHeader_data {i : Instr} {s : State} (hd : i.dataBearing = true) :
    portAfterHeader i s = if Config.outMax < s.outLen + i.appendCount then atBoundary (s.raise .outputOverflow)
      else ⟨s, .payload i []⟩ := by
  have hend : i ≠ .endMark := by rintro rfl; cases hd
  rw [portAfterHeader, if_neg hend, if_neg (not_illegal_of_dataBearing hd)]

theorem portAfterHeader_illegal {i : Instr} {s : State} (hi : i.illegal = true) :
    portAfterHeader i s = atBoundary (s.raise .unknownCommand) := by
  have hend : i ≠ .endMark := by rintro rfl; cases hi
  rw [portAfterHeader, if_neg hend, if_pos hi]

/-- What follows the header: the port's checks and payload transactions end where `exec` does. -/
theorem portAfterHeader_reaches {i : Instr} {s t : State} (hw : i.wellFormed = true) (hr : s.state = .reading)
    (h : exec i s = .next t) : (portAfterHeader i s).Reaches t := by
  rcases instr_trichotomy i with hd | hi | rfl
  · rw [portAfterHeader_data hd]
    rw [exec_eq_dataCommand hd, dataCommand] at h
    split
    · rename_i hover
      rw [checkCeiling_over hover] at h
      cases h
      rw [State.raise_eq]
      exact .refl _
    · rename_i hfits
      rw [checkCeiling_fits (Nat.le_of_not_lt hfits)] at h
      obtain ⟨n, hn⟩ := Nat.exists_eq_add_of_le' (one_le_payloadSize hw hd)
      rw [hn] at h
      exact reaches_of_payload n hr (by simp [hn]) h
  · rw [exec_illegal hi] at h
    cases h
    rw [portAfterHeader_illegal hi, State.raise_eq]
    exact .refl _
  · cases h
    exact .refl _

/-- Settles O53: the header's transactions lead to where `exec` begins, and from there the port ends where `exec` does. -/
theorem sourcePortRefinesStep : Obligations.SourcePortRefinesStep := by
  intro s t h
  have hr := step_reading h
  rcases step_cases hr with ⟨hb, hs⟩ | ⟨h0, i, hb, hc, hs⟩ | ⟨h0, hb, hc, hb1, hs⟩ | ⟨h0, h1, hb, hc, hb1, hs⟩ <;>
    rw [hs] at h
  · cases h
    exact portTicks_pos_of_tick (portTick_exhausted hr hb) (.refl _)
  · obtain ⟨hw, _⟩ := classifyFirst_whole hc
    exact portTicks_pos_of_tick (portTick_wholeHeader hr hb hc) (portAfterHeader_reaches hw hr h)
  · cases h
    have second := portTick_exhausted (m := ⟨s.noteReads [s.pc], .secondHeader h0⟩) hr hb1
    rw [State.noteReads_failedAfter] at second
    rw [State.issuedTo_succ]
    exact portTicks_pos_of_tick (portTick_extendedHeader hr hb hc) (.tick second (.refl _))
  · obtain ⟨hw, _⟩ := decodeExtended_spec hc h1
    have second := portTick_secondHeader (s := s.noteReads [s.pc]) (h0 := h0) hr hb1
    rw [State.noteReads_noteReads] at second
    exact portTicks_pos_of_tick (portTick_extendedHeader hr hb hc) (.tick second (portAfterHeader_reaches hw hr h))

end Sys2Proof.Machine

/-! ## The encoding: headers written, read back and laid out in the table (spec/30_encoding.md) -/

namespace Sys2Proof

open Machine

/-! ### The command codes (R85) -/

/-- The code of each data-bearing command with its short and its extended constructor, row by row (R85). -/
inductive CommandCode : BitVec 3 → (Nat → Instr) → (Nat → Instr) → Prop where
  | lit : CommandCode 0 .lit .litX
  | runb : CommandCode 1 .runb .runbX
  | runw : CommandCode 2 .runw .runwX
  | runi : CommandCode 3 .runi .runiX
  | bref : CommandCode 4 .bref .brefX
  | mref : CommandCode 5 .mref .mrefX
  | rref : CommandCode 6 .rref .rrefX

/-- The sentinel 0xFF has 7 in both code fields, so a command's header never is the sentinel (R89). -/
theorem ne_endMark_of_topField {h0 : Byte} (ht : topField h0 ≠ 7#3) : h0 ≠ 0xFF#8 := by
  rintro rfl
  exact ht rfl

theorem ne_endMark_of_extCode {h0 : Byte} (hx : extCode h0 ≠ 7#3) : h0 ≠ 0xFF#8 := by
  rintro rfl
  exact hx rfl

section
variable {code : BitVec 3} {short ext : Nat → Instr}

/-- Code 7 is no command's: it is the escape marker in a short header and illegal in an extended one (R81, R90). -/
theorem CommandCode.ne_seven (hc : CommandCode code short ext) : code ≠ 7#3 := by
  cases hc <;> decide

theorem CommandCode.encode_short (hc : CommandCode code short ext) (n : Nat) :
    encode (short n) = encodeShort code n := by
  cases hc <;> rfl

theorem CommandCode.encode_ext (hc : CommandCode code short ext) (n : Nat) :
    encode (ext n) = encodeExtended code n := by
  cases hc <;> rfl

theorem CommandCode.classifyFirst_eq (hc : CommandCode code short ext) {h0 : Byte} (ht : topField h0 = code) :
    classifyFirst h0 = .whole (short (shortLength h0)) := by
  rw [classifyFirst, if_neg (ne_endMark_of_topField (ht ▸ hc.ne_seven)), ht]
  cases hc <;> rfl

theorem classifyFirst_escape {h0 : Byte} (hend : h0 ≠ 0xFF#8) (ht : topField h0 = 7#3) :
    classifyFirst h0 = .extended := by
  rw [classifyFirst, if_neg hend, ht]
  rfl

theorem CommandCode.decodeExtended_eq (hc : CommandCode code short ext) {h0 : Byte} (hx : extCode h0 = code)
    (h1 : Byte) : decodeExtended h0 h1 = ext (extLength h0 h1) := by
  rw [decodeExtended, hx]
  cases hc <;> rfl

/-! ### Decoding what was encoded -/

theorem CommandCode.decode_short (hc : CommandCode code short ext) {h0 : Byte} (ht : topField h0 = code)
    (rest : List Byte) : decode (h0 :: rest) = .ok (short (shortLength h0), rest) :=
  decode_whole (hc.classifyFirst_eq ht) rest

theorem CommandCode.decode_ext (hc : CommandCode code short ext) {h0 : Byte} (ht : topField h0 = 7#3)
    (hx : extCode h0 = code) (h1 : Byte) (rest : List Byte) :
    decode (h0 :: h1 :: rest) = .ok (ext (extLength h0 h1), rest) := by
  have hend := ne_endMark_of_extCode (hx ▸ hc.ne_seven)
  rw [decode_extended (classifyFirst_escape hend ht), hc.decodeExtended_eq hx]

theorem CommandCode.decode_encodeShort (hc : CommandCode code short ext) {n : Nat} (hn : ShortLength n)
    (rest : List Byte) : decode (encodeShort code n ++ rest) = .ok (short n, rest) := by
  obtain ⟨h0, henc, _, ht, hl⟩ := encodeShort_fields code n hc.ne_seven hn
  rw [henc, List.singleton_append, hc.decode_short ht, hl]

theorem CommandCode.decode_encodeExtended (hc : CommandCode code short ext) {n : Nat} (hn : ExtLength n)
    (rest : List Byte) : decode (encodeExtended code n ++ rest) = .ok (ext n, rest) := by
  obtain ⟨h0, h1, henc, _, ht, hx, hl⟩ := encodeExtended_fields code n hc.ne_seven hn
  rw [henc, List.cons_append, List.singleton_append, hc.decode_ext ht hx, hl]

end

/-- Settles O1: the fields the encoder writes are those the decoder reads, once for the seven short forms and once for
the seven extended ones; `END` and the illegal rows are fixed first bytes. -/
theorem decodeOfEncodedInstruction : Obligations.DecodeOfEncodedInstruction := by
  intro i rest h
  cases i with
  | lit n => exact CommandCode.lit.decode_encodeShort (of_decide_eq_true h) rest
  | runb n => exact CommandCode.runb.decode_encodeShort (of_decide_eq_true h) rest
  | runw n => exact CommandCode.runw.decode_encodeShort (of_decide_eq_true h) rest
  | runi n => exact CommandCode.runi.decode_encodeShort (of_decide_eq_true h) rest
  | bref n => exact CommandCode.bref.decode_encodeShort (of_decide_eq_true h) rest
  | mref n => exact CommandCode.mref.decode_encodeShort (of_decide_eq_true h) rest
  | rref n => exact CommandCode.rref.decode_encodeShort (of_decide_eq_true h) rest
  | litX n => exact CommandCode.lit.decode_encodeExtended (of_decide_eq_true h) rest
  | runbX n => exact CommandCode.runb.decode_encodeExtended (of_decide_eq_true h) rest
  | runwX n => exact CommandCode.runw.decode_encodeExtended (of_decide_eq_true h) rest
  | runiX n => exact CommandCode.runi.decode_encodeExtended (of_decide_eq_true h) rest
  | brefX n => exact CommandCode.bref.decode_encodeExtended (of_decide_eq_true h) rest
  | mrefX n => exact CommandCode.mref.decode_encodeExtended (of_decide_eq_true h) rest
  | rrefX n => exact CommandCode.rref.decode_encodeExtended (of_decide_eq_true h) rest
  | endMark | illFC h1 | illFD h1 | illFE h1 => rfl

/-- Settles O2: a whole header and an extended one are each well formed and the encoding of the bytes they stand in. -/
theorem encodeOfDecodedBytes : Obligations.EncodeOfDecodedBytes := by
  intro bytes rest i h
  rcases decode_ok_cases h with ⟨h0, rfl, hc⟩ | ⟨h0, h1, rfl, hc, rfl⟩
  · obtain ⟨hw, henc, _⟩ := classifyFirst_whole hc
    exact ⟨hw, by rw [henc, List.singleton_append]⟩
  · obtain ⟨hw, henc, _⟩ := decodeExtended_spec hc h1
    exact ⟨hw, by rw [henc, List.cons_append, List.singleton_append]⟩

/-! ### The fields of a header as numbers (R81, R82) -/

theorem topField_toNat (h0 : Byte) : (topField h0).toNat = h0.toNat / 32 := by
  rw [topField, BitVec.extractLsb'_toNat, Nat.shiftRight_eq_div_pow]
  have := h0.isLt
  omega

theorem extCode_toNat (h0 : Byte) : (extCode h0).toNat = h0.toNat / 4 % 8 := by
  rw [extCode, BitVec.extractLsb'_toNat, Nat.shiftRight_eq_div_pow]

theorem extLength_toNat (h0 h1 : Byte) : extLength h0 h1 = h0.toNat % 4 * 256 + h1.toNat + 1 := by
  rw [extLength_eq, BitVec.extractLsb'_toNat, Nat.shiftRight_zero]

theorem shortLength_toNat (h0 : Byte) : shortLength h0 = h0.toNat % 32 + 1 := by
  rw [shortLength, BitVec.extractLsb'_toNat, Nat.shiftRight_zero]

/-! ### The header parser in its own arithmetic (R112) -/

/-- The escape test of R112, by mask, is the test of the field `h0[7:5]`. -/
theorem mask_escape_iff (h0 : Byte) : h0.toNat &&& 0xE0 = 0xE0 ↔ topField h0 = 7#3 := by
  revert h0
  decide

theorem decodeHeader_short {h0 : Byte} (ht : topField h0 ≠ 7#3) (readH1 : Unit → Option Byte) :
    decodeHeader h0 readH1 = some (.command (topField h0).toNat (shortLength h0) 1) := by
  have hlow : h0.toNat &&& 31 = h0.toNat % 32 := Nat.and_two_pow_sub_one_eq_mod _ 5
  rw [decodeHeader, if_neg (ne_endMark_of_topField ht), if_neg (mt (mask_escape_iff h0).mp ht), topField_toNat,
    shortLength_toNat, hlow, Nat.shiftRight_eq_div_pow]

theorem decodeHeader_escape {h0 : Byte} (hend : h0 ≠ 0xFF#8) (ht : topField h0 = 7#3) (readH1 : Unit → Option Byte) :
    decodeHeader h0 readH1 = (readH1 ()).map fun h1 => .command (extCode h0).toNat (extLength h0 h1) 2 := by
  have hcode : (h0.toNat >>> 2) &&& 7 = h0.toNat >>> 2 % 8 := Nat.and_two_pow_sub_one_eq_mod _ 3
  have hlow : h0.toNat &&& 3 = h0.toNat % 4 := Nat.and_two_pow_sub_one_eq_mod _ 2
  have hlen : ∀ h1 : Byte, ((h0.toNat % 4) <<< 8) ||| h1.toNat = h0.toNat % 4 * 256 + h1.toNat := fun h1 => by
    rw [← Nat.shiftLeft_add_eq_or_of_lt h1.isLt, Nat.shiftLeft_eq]
  rw [decodeHeader, if_neg hend, if_pos ((mask_escape_iff h0).mpr ht), hcode, hlow, extCode_toNat,
    Nat.shiftRight_eq_div_pow]
  simp only [extLength_toNat, hlen]

/-! ### The canonical header (R93) -/

/-- `encode_header`, said once. -/
theorem encodeHeader_eq_some {code : BitVec 3} {n : Nat} {bytes : List Byte} :
    encodeHeader code n = some bytes ↔ code ≠ 7#3 ∧ ExtLength n ∧
      bytes = if n ≤ 32 then encodeShort code n else encodeExtended code n := by
  have fits : n - 1 ≤ 31 ↔ n ≤ 32 := by omega
  unfold encodeHeader
  by_cases hc : code = 7#3
  · simp [hc]
  by_cases hn : ExtLength n
  · rw [if_neg hc, if_neg (not_not_intro hn), ← apply_ite some, if_congr fits rfl rfl, Option.some_inj]
    exact ⟨fun h => ⟨hc, hn, h.symm⟩, fun ⟨_, _, h⟩ => h.symm⟩
  · rw [if_neg hc, if_pos hn]
    exact ⟨nofun, fun ⟨_, h, _⟩ => absurd h hn⟩

/-- A first byte with a command's code in either field lies below the illegal rows and the sentinel (R90, R97). -/
theorem toNat_lt_of_topField {h0 : Byte} (ht : topField h0 ≠ 7#3) : h0.toNat < 0xFC := by
  revert h0
  decide

theorem toNat_lt_of_extCode {h0 : Byte} (hx : extCode h0 ≠ 7#3) : h0.toNat < 0xFC := by
  revert h0
  decide

theorem decodeHeader_encodeHeader {code : BitVec 3} {n : Nat} (hc : code ≠ 7#3) (hn : ExtLength n) :
    ∃ h0 tail, encodeHeader code n = some (h0 :: tail) ∧
      decodeHeader h0 (fun _ => tail.head?) = some (.command code.toNat n (1 + tail.length)) ∧ h0.toNat < 0xFC := by
  by_cases hs : n ≤ 32
  · obtain ⟨h0, henc, _, rfl, rfl⟩ := encodeShort_fields code n hc ⟨hn.1, hs⟩
    refine ⟨h0, [], encodeHeader_eq_some.mpr ⟨hc, hn, ?_⟩, decodeHeader_short hc _, toNat_lt_of_topField hc⟩
    rw [if_pos hs, henc]
  · obtain ⟨h0, h1, henc, hend, ht, rfl, rfl⟩ := encodeExtended_fields code n hc hn
    refine ⟨h0, [h1], encodeHeader_eq_some.mpr ⟨hc, hn, ?_⟩, decodeHeader_escape hend ht _, toNat_lt_of_extCode hc⟩
    rw [if_neg hs, henc]

/-- Two canonical header bytes carry a length above 32. -/
theorem lt_extLength_of_encodeHeader {code : BitVec 3} {n : Nat} {h0 h1 : Byte}
    (h : encodeHeader code n = some [h0, h1]) : 32 < extLength h0 h1 := by
  obtain ⟨hc, hn, hbytes⟩ := encodeHeader_eq_some.mp h
  split at hbytes
  · cases hbytes
  next hs =>
    obtain ⟨g0, g1, henc, _, _, _, hl⟩ := encodeExtended_fields code n hc hn
    rw [henc] at hbytes
    cases hbytes
    omega

/-- Settles O3: the parser reads the fields the encoder wrote; an extended header of a length up to 32 carries that
length, and a canonical header of two bytes does not. -/
theorem headerSymmetry : Obligations.HeaderSymmetry := by
  refine ⟨fun code n hc h1 h2 => decodeHeader_encodeHeader hc ⟨h1, h2⟩, fun code n hc hn hn' => ?_⟩
  obtain ⟨h0, h1, henc, hend, ht, rfl, rfl⟩ := encodeExtended_fields code n hc ⟨hn, hn'.trans (by decide)⟩
  exact ⟨h0, h1, henc, decodeHeader_escape hend ht _, fun c l h => absurd (lt_extLength_of_encodeHeader h) (by omega)⟩

/-! ### The assembler's lines (R95) -/

/-- A plain line takes the canonical header, the suffix `.X` the extended one: each is the encoding of the command. -/
theorem CommandCode.header_eq_some {code : BitVec 3} {short ext : Nat → Instr} (hc : CommandCode code short ext)
    (form : HeaderForm) (n : Nat) (bytes : List Byte) :
    form.header code n = some bytes ↔
      ExtLength n ∧ bytes = encode (if form = .canonical ∧ n ≤ 32 then short n else ext n) := by
  rw [apply_ite encode, hc.encode_short, hc.encode_ext]
  cases form with
  | canonical => simp [HeaderForm.header, encodeHeader_eq_some, hc.ne_seven]
  | extended => simp [HeaderForm.header, hc.ne_seven, eq_comm]

theorem CommandCode.line_eq_some {code : BitVec 3} {short ext : Nat → Instr} (hc : CommandCode code short ext)
    (form : HeaderForm) (n : Nat) (payload bytes : List Byte) :
    (form.header code n).map (· ++ payload) = some bytes ↔
      ExtLength n ∧ bytes = encode (if form = .canonical ∧ n ≤ 32 then short n else ext n) ++ payload := by
  simp only [Option.map_eq_some_iff, hc.header_eq_some, and_assoc, exists_and_left, exists_eq_left]
  rw [eq_comm (a := bytes)]

theorem illegal_encode_iff (h0 h1 : Byte) :
    (∃ i : Instr, i.illegal = true ∧ encode i = [h0, h1]) ↔ 0xFC ≤ h0.toNat ∧ h0.toNat ≤ 0xFE := by
  have bytes : 0xFC ≤ h0.toNat ∧ h0.toNat ≤ 0xFE ↔ h0 = 0xFC#8 ∨ h0 = 0xFD#8 ∨ h0 = 0xFE#8 := by
    revert h0
    decide
  rw [bytes]
  constructor
  · rintro ⟨i, hi, henc⟩
    cases i <;> cases hi <;> cases henc
    exacts [.inl rfl, .inr (.inl rfl), .inr (.inr rfl)]
  · rintro (rfl | rfl | rfl)
    · exact ⟨.illFC h1, rfl, rfl⟩
    · exact ⟨.illFD h1, rfl, rfl⟩
    · exact ⟨.illFE h1, rfl, rfl⟩

/-- Settles O7: each of the seven kinds of data-bearing line is a header of its command's code and a payload; a `.ILL`
line stands for bytes exactly where they are an illegal header. -/
theorem assembledLines : Obligations.AssembledLines := by
  refine ⟨fun form line short ext n payload bytes h => ?_, rfl, fun h0 h1 bytes => ?_, fun _ => rfl⟩
  · rcases h with ⟨rfl, rfl, rfl, rfl⟩ | ⟨v, rfl, rfl, rfl, rfl⟩ | ⟨v0, v1, rfl, rfl, rfl, rfl⟩ |
      ⟨v, rfl, rfl, rfl, rfl⟩ | ⟨off, rfl, rfl, rfl, rfl⟩ | ⟨off, rfl, rfl, rfl, rfl⟩ | ⟨off, rfl, rfl, rfl, rfl⟩
    · exact CommandCode.lit.line_eq_some ..
    · exact CommandCode.runb.line_eq_some ..
    · exact CommandCode.runw.line_eq_some ..
    · exact CommandCode.runi.line_eq_some ..
    · exact CommandCode.bref.line_eq_some ..
    · exact CommandCode.mref.line_eq_some ..
    · exact CommandCode.rref.line_eq_some ..
  · rw [illegal_encode_iff, AsmLine.assemble, Option.ite_none_right_eq_some, Option.some_inj, and_comm, eq_comm]

/-! ### The table of first bytes (R97) -/

section
variable {code : BitVec 3} {short ext : Nat → Instr} {h0 : Byte}

theorem CommandCode.decode_short_range (hc : CommandCode code short ext) (rest : List Byte)
    (lo : 32 * code.toNat ≤ h0.toNat) (hi : h0.toNat ≤ 32 * code.toNat + 31) :
    decode (h0 :: rest) = .ok (short (h0.toNat - 32 * code.toNat + 1), rest) := by
  have ht : topField h0 = code := by
    apply BitVec.eq_of_toNat_eq
    rw [topField_toNat]
    omega
  have hl : shortLength h0 = h0.toNat - 32 * code.toNat + 1 := by
    rw [shortLength_toNat]
    omega
  rw [hc.decode_short ht, hl]

theorem CommandCode.decode_ext_range (hc : CommandCode code short ext) (h1 : Byte) (rest : List Byte)
    (lo : 0xE0 + 4 * code.toNat ≤ h0.toNat) (hi : h0.toNat ≤ 0xE0 + 4 * code.toNat + 3) :
    decode (h0 :: h1 :: rest) = .ok (ext ((h0.toNat - (0xE0 + 4 * code.toNat)) * 256 + h1.toNat + 1), rest) := by
  have hcode := code.isLt
  have ht : topField h0 = 7#3 := by
    apply BitVec.eq_of_toNat_eq
    rw [topField_toNat, BitVec.toNat_ofNat]
    omega
  have hx : extCode h0 = code := by
    apply BitVec.eq_of_toNat_eq
    rw [extCode_toNat]
    omega
  have hl : extLength h0 h1 = (h0.toNat - (0xE0 + 4 * code.toNat)) * 256 + h1.toNat + 1 := by
    rw [extLength_toNat]
    omega
  rw [hc.decode_ext ht hx, hl]

end

theorem decode_congr_firstByte {h0 g0 : Byte} (h : h0.toNat = g0.toNat) (bytes : List Byte) :
    decode (h0 :: bytes) = decode (g0 :: bytes) := by
  rw [BitVec.eq_of_toNat_eq h]

/-- The table's name of the command that begins with a first byte; an extended one has the same name whatever second
byte follows (`decodeExtended_mnemonic`). -/
def firstByteMnemonic (h0 : Byte) : String :=
  match classifyFirst h0 with
  | .whole i => i.mnemonic
  | .extended => (decodeExtended h0 0).mnemonic

theorem decodeExtended_mnemonic (h0 h1 : Byte) :
    (decodeExtended h0 h1).mnemonic = (decodeExtended h0 0).mnemonic := by
  unfold decodeExtended
  split
  case h_8 => split <;> rfl
  all_goals rfl

theorem opcodeRows_selected : ∀ h0 : Byte,
    (opcodeRows.filter fun r => r.selects h0).map (fun r => r.mnemonic) = [firstByteMnemonic h0] := by
  decide

theorem decode_selects_one_row (h0 h1 : Byte) (rest : List Byte) :
    ∃ i rest', decode (h0 :: h1 :: rest) = .ok (i, rest') ∧
      (opcodeRows.filter fun r => r.selects h0).map (fun r => r.mnemonic) = [i.mnemonic] := by
  rw [opcodeRows_selected, firstByteMnemonic]
  cases hc : classifyFirst h0 with
  | whole i => exact ⟨i, h1 :: rest, decode_whole hc _, rfl⟩
  | extended =>
    exact ⟨decodeExtended h0 h1, rest, decode_extended hc h1 rest, by rw [decodeExtended_mnemonic h0 h1]⟩

/-- Settles O5: a range of 32 first bytes is a short command, one of 4 an extended command, and the last four bytes
are single rows. -/
theorem firstByteRanges : Obligations.FirstByteRanges := by
  intro h0 h1 rest
  refine ⟨fun hi => CommandCode.lit.decode_short_range rest (Nat.zero_le _) hi,
    CommandCode.runb.decode_short_range rest, CommandCode.runw.decode_short_range rest,
    CommandCode.runi.decode_short_range rest, CommandCode.bref.decode_short_range rest,
    CommandCode.mref.decode_short_range rest, CommandCode.rref.decode_short_range rest,
    CommandCode.lit.decode_ext_range h1 rest, CommandCode.runb.decode_ext_range h1 rest,
    CommandCode.runw.decode_ext_range h1 rest, CommandCode.runi.decode_ext_range h1 rest,
    CommandCode.bref.decode_ext_range h1 rest, CommandCode.mref.decode_ext_range h1 rest,
    CommandCode.rref.decode_ext_range h1 rest, fun h => decode_congr_firstByte (g0 := 0xFC#8) h _,
    fun h => decode_congr_firstByte (g0 := 0xFD#8) h _, fun h => decode_congr_firstByte (g0 := 0xFE#8) h _,
    fun h => decode_congr_firstByte (g0 := 0xFF#8) h _, decode_selects_one_row h0 h1 rest⟩

/-- Settles O6: each word is evaluated by the decoder. -/
theorem decodedWords : Obligations.DecodedWords :=
  ⟨rfl, rfl, rfl, rfl, rfl, rfl, rfl, rfl, rfl, rfl⟩

end Sys2Proof

/-! ## The interpreter: the header fetch, one command per step, a whole run (spec/40_interpreter_and_header.md) -/

namespace Sys2Proof

open Machine

/-! ### The decoder and the header parser (R112, R113) -/

/-- Every code but 7 is a command's (R85). -/
theorem exists_commandCode {code : BitVec 3} (h : code ≠ 7#3) : ∃ short ext, CommandCode code short ext := by
  have codes : code = 0 ∨ code = 1 ∨ code = 2 ∨ code = 3 ∨ code = 4 ∨ code = 5 ∨ code = 6 := by
    revert code
    decide
  rcases codes with rfl | rfl | rfl | rfl | rfl | rfl | rfl
  exacts [⟨_, _, .lit⟩, ⟨_, _, .runb⟩, ⟨_, _, .runw⟩, ⟨_, _, .runi⟩, ⟨_, _, .bref⟩, ⟨_, _, .mref⟩, ⟨_, _, .rref⟩]

section
variable {code : BitVec 3} {short ext : Nat → Instr}

theorem CommandCode.short_header (hc : CommandCode code short ext) (n : Nat) :
    (short n).header = .command code.toNat n 1 := by
  cases hc <;> rfl

theorem CommandCode.ext_header (hc : CommandCode code short ext) (n : Nat) :
    (ext n).header = .command code.toNat n 2 := by
  cases hc <;> rfl

end

/-- A second byte follows exactly the escape marker, except in the sentinel (R83). -/
theorem classifyFirst_extended_iff {h0 : Byte} : classifyFirst h0 = .extended ↔ h0 ≠ 0xFF#8 ∧ topField h0 = 7#3 := by
  revert h0
  decide

/-- Code 7 in an extended header is one of the three illegal rows (R90). -/
theorem illegal_of_extCode {h0 : Byte} (hc : classifyFirst h0 = .extended) (hx : extCode h0 = 7#3) :
    h0 = 0xFC#8 ∨ h0 = 0xFD#8 ∨ h0 = 0xFE#8 := by
  revert h0
  decide

/-- A whole header that is not the sentinel carries a command's code and a short length (R81). -/
theorem classifyFirst_header {h0 : Byte} {i : Instr} (hc : classifyFirst h0 = .whole i) (hend : h0 ≠ 0xFF#8) :
    topField h0 ≠ 7#3 ∧ i.header = .command (topField h0).toNat (shortLength h0) 1 := by
  have ht : topField h0 ≠ 7#3 := fun ht => by
    rw [classifyFirst_escape hend ht] at hc
    cases hc
  obtain ⟨short, ext, hcode⟩ := exists_commandCode ht
  rw [hcode.classifyFirst_eq rfl] at hc
  cases hc
  exact ⟨ht, hcode.short_header _⟩

theorem decodeExtended_header {h0 : Byte} (hc : classifyFirst h0 = .extended) (h1 : Byte) :
    (decodeExtended h0 h1).header = .command (extCode h0).toNat (extLength h0 h1) 2 := by
  by_cases hx : extCode h0 = 7#3
  · rw [extLength_toNat]
    rcases illegal_of_extCode hc hx with rfl | rfl | rfl
    · exact congrArg (Header.command 7 · 2) (by simp)
    · rfl
    · rfl
  · obtain ⟨short, ext, hcode⟩ := exists_commandCode hx
    rw [hcode.decodeExtended_eq rfl, hcode.ext_header]

/-- Settles O4: the sentinel, a short header and an extended one, each with the fields the parser reads. -/
theorem decoderAgreesWithHeaderParser : Obligations.DecoderAgreesWithHeaderParser := by
  refine ⟨fun h0 i hc readH1 => ?_, fun h0 hc => ?_⟩
  · by_cases hend : h0 = 0xFF#8
    · subst hend
      cases hc
      rfl
    · obtain ⟨ht, hheader⟩ := classifyFirst_header hc hend
      rw [decodeHeader_short ht, hheader]
  · obtain ⟨hend, ht⟩ := classifyFirst_extended_iff.mp hc
    refine ⟨decodeHeader_escape hend ht _, fun h1 => ?_⟩
    rw [decodeHeader_escape hend ht, decodeExtended_header hc]
    rfl

end Sys2Proof

namespace Sys2Proof.Machine

/-! ### The header at pc (R111 steps (1) to (3), R113) -/

theorem State.HeaderAt.of_whole {s : State} {h0 : Byte} {i : Instr} (hb : s.srcByte s.pc = some h0)
    (hc : classifyFirst h0 = .whole i) : s.HeaderAt i := by
  refine ⟨[h0], decode_whole hc [], fun j hj => ?_⟩
  obtain rfl : j = 0 := Nat.lt_one_iff.mp hj
  exact hb

theorem State.HeaderAt.of_extended {s : State} {h0 h1 : Byte} (hb : s.srcByte s.pc = some h0)
    (hc : classifyFirst h0 = .extended) (hb1 : s.srcByte (s.pc + 1) = some h1) :
    s.HeaderAt (decodeExtended h0 h1) := by
  refine ⟨[h0, h1], decode_extended hc h1 [], fun j hj => ?_⟩
  match j, hj with
  | 0, _ => exact hb
  | 1, _ => exact hb1

/-- No first byte; the first of two and no second one; or a whole header. -/
theorem State.header_cases (s : State) :
    s.srcByte s.pc = none ∨
    (∃ h0, s.srcByte s.pc = some h0 ∧ classifyFirst h0 = .extended ∧ s.srcByte (s.pc + 1) = none) ∨
    ∃ i, s.HeaderAt i := by
  cases hb : s.srcByte s.pc with
  | none => exact .inl rfl
  | some h0 =>
    right
    cases hc : classifyFirst h0 with
    | whole i => exact .inr ⟨i, .of_whole hb hc⟩
    | extended =>
      cases hb1 : s.srcByte (s.pc + 1) with
      | none => exact .inl ⟨h0, rfl, hc, rfl⟩
      | some h1 => exact .inr ⟨_, .of_extended hb hc hb1⟩

theorem step_firstByteMissing {s : State} (hr : s.state = .reading) (hb : s.srcByte s.pc = none) :
    step s = .next (s.failedAfter .truncatedInput (s.issuedTo s.pc 0)) := by
  rw [step, hr]
  exact readU8_none hb _

theorem step_secondByteMissing {s : State} {h0 : Byte} (hr : s.state = .reading) (hb : s.srcByte s.pc = some h0)
    (hc : classifyFirst h0 = .extended) (hb1 : s.srcByte (s.pc + 1) = none) :
    step s = .next (s.failedAfter .truncatedInput (s.issuedTo s.pc 1)) := by
  have hb1' : (s.noteReads [s.pc]).srcByte (s.pc + 1) = none := hb1
  have fetch : step s = fetchHeader s exec := by rw [step, hr]
  rw [fetch, fetchHeader, readU8_some hb]
  simp only [hc]
  rw [readU8_none hb1', State.noteReads_failedAfter, State.noteReads_issuedTo, State.issuedTo_succ]
  rfl

/-- The test of R113: the escape marker, and not the sentinel. -/
theorem classifyFirst_extended_iff_mask (h0 : Byte) :
    classifyFirst h0 = .extended ↔ h0 &&& 0xE0#8 = 0xE0#8 ∧ h0 ≠ 0xFF#8 := by
  rw [classifyFirst_extended_iff, ← mask_escape_iff, ← BitVec.toNat_inj, BitVec.toNat_and, and_comm]
  rfl

/-- Settles O22: a first byte that passes the test of R113 needs the second one; any other is a whole header. -/
theorem headerTruncation : Obligations.HeaderTruncation := by
  refine fun s hr => ⟨step_firstByteMissing hr, fun h0 hb hb1 => ?_⟩
  rw [← classifyFirst_extended_iff_mask]
  refine ⟨fun hc => step_secondByteMissing hr hb hc hb1, fun hn => ?_⟩
  cases hc : classifyFirst h0 with
  | extended => exact absurd hc hn
  | whole i =>
    refine ⟨i, decode_whole hc [], ?_⟩
    rw [step_of_headerAt hr (.of_whole hb hc), classifyFirst_headerSize hc]
    rfl

/-- Settles O21: what decodes is well formed, and the step is `exec` of it. -/
theorem stepRunsDecodedInstruction : Obligations.StepRunsDecodedInstruction := by
  intro s i hr hh
  have ⟨_, hd, _⟩ := hh
  exact ⟨(encodeOfDecodedBytes _ _ _ hd).1, step_of_headerAt hr hh⟩

/-! ### A step always has a next state (R110, R111) -/

/-- Every instruction has a next state, a failing one failure entry. -/
theorem exec_next (i : Instr) (s : State) : ∃ t, exec i s = .next t := by
  rcases exec_cases i s with ⟨_, hx⟩ | ⟨_, hx⟩ | ⟨_, _, hx⟩ | ⟨_, _, _, _, _, hx⟩ | ⟨_, _, _, _, hx⟩ |
    ⟨_, _, _, _, _, _, hx⟩ <;> exact ⟨_, hx⟩

theorem step_next {s : State} (hr : s.state = .reading) : ∃ t, step s = .next t := by
  rcases step_fetch hr with ⟨_, _, _, hs⟩ | ⟨i, _, hs⟩
  · exact ⟨_, hs⟩
  · rw [hs]
    exact exec_next _ _

/-- Settles O25: in `Reading` header fetch and `exec` each have a next state; elsewhere the step is the fault. -/
theorem stepEnabledExactlyInReading : Obligations.StepEnabledExactlyInReading := fun _ =>
  ⟨⟨fun ⟨_, hs⟩ => step_reading hs, step_next⟩, step_not_reading⟩

/-! ### Every decode ends (R119) -/

theorem decodeRun_succ {s t : State} (h : step s = .next t) (k : Nat) : decodeRun (k + 1) s = decodeRun k t := by
  rw [decodeRun, h]

theorem decodeRun_not_reading {s : State} (h : s.state ≠ .reading) (k : Nat) : decodeRun k s = s := by
  cases k with
  | zero => rfl
  | succ k => rw [decodeRun, step_not_reading h]

/-- A step that does not end the decode appends at least one byte, and what it appends fits under the ceiling (R115). -/
theorem StepResult.ends_or_appends {s t : State} (h : StepResult s t) :
    (t.state = .done ∨ t.state = .failed) ∨
    (t.state = s.state ∧ s.outLen < t.outLen ∧ t.outLen ≤ Config.outMax) := by
  cases h with
  | headerTruncated _ _ _ next | payloadTruncated _ _ _ _ _ _ _ next | unknown _ _ _ next | overflowed _ _ _ _ next
  | outOfRange _ _ _ _ _ next => exact .inl (.inr (by rw [next]; rfl))
  | ended _ next => exact .inl (.inl (by rw [next]))
  | completed i v wf data _ fits _ len next =>
    have grows : t.outLen = s.outLen + i.appendCount := by simp [next, State.outLen, len]
    have nonempty := Instr.one_le_appendCount wf data
    exact .inr ⟨by rw [next], by omega, by
      rw [grows]
      exact Nat.le_of_not_lt fun tooMany => fits ⟨data, tooMany⟩⟩

/-- Room for `n` more bytes bounds the run by `n + 1` steps: each step but the last takes at least one of them. -/
theorem decodeRun_ends (n : Nat) {s : State} (hr : s.state = .reading) (room : Config.outMax ≤ s.outLen + n) :
    ∃ k ≤ n + 1, (decodeRun k s).state = .done ∨ (decodeRun k s).state = .failed := by
  induction n generalizing s with
  | zero =>
    obtain ⟨t, hs⟩ := step_next hr
    rcases (step_result hr hs).ends_or_appends with ends | ⟨_, grows, fits⟩
    · exact ⟨1, le_rfl, by rwa [decodeRun_succ hs]⟩
    · omega
  | succ n ih =>
    obtain ⟨t, hs⟩ := step_next hr
    rcases (step_result hr hs).ends_or_appends with ends | ⟨ht, grows, _⟩
    · exact ⟨1, by omega, by rwa [decodeRun_succ hs]⟩
    · obtain ⟨k, hk, ends⟩ := ih (ht.trans hr) (by omega)
      exact ⟨k + 1, by omega, by rwa [decodeRun_succ hs]⟩

/-- Settles O38: the bytes that still fit bound the steps; after a start that is the whole buffer. -/
theorem decodeTerminates : Obligations.DecodeTerminates := by
  refine ⟨fun s _ hr => decodeRun_ends _ hr (by omega), fun a s r _ hn h => ?_⟩
  rw [hostStart_accepted hn h]
  exact decodeRun_ends Config.outMax rfl (Nat.le_add_left ..)

/-! ### A decode does not depend on the source's cursor (R121, R231) -/

/-- The same decoder and source with the cursor elsewhere. -/
def State.withCursor (c : Nat) (s : State) : State := { s with srcCursor := c }

/-- The last part of a command depends on no other part of the state than the buffer. -/
theorem produce_congr {s u : State} (h : s.out = u.out) (i : Instr) (got : List Byte) :
    produce i got s = produce i got u := by
  have cells : s.outByte = u.outByte := by
    funext k
    rw [State.outByte, State.outByte, h]
  cases i <;> simp only [produce, forwardRange, backwardRange, State.outLen, cells, h]

theorem portFinish_withCursor (c : Nat) (i : Instr) (got : List Byte) (s : State) :
    portFinish i got (s.withCursor c) = (portFinish i got s).withCursor c := by
  rw [portFinish, portFinish, produce_congr (s := s.withCursor c) (u := s) rfl]
  cases produce i got s <;> rfl

/-- No meaning reads or writes the cursor. -/
theorem exec_withCursor {i : Instr} {s t : State} (c : Nat) (h : exec i s = .next t) :
    exec i (s.withCursor c) = .next (t.withCursor c) := by
  rcases instr_trichotomy i with hd | hi | rfl
  · by_cases ho : s.Overflowing i
    · rw [exec_overflowing hd ho] at h
      cases h
      exact exec_overflowing hd ho
    rcases s.present_or_firstMissing (s.pc + i.headerSize) i.payloadSize with hp | ⟨k, hk, hm⟩
    · rw [exec_present hd ho hp] at h
      cases h
      rw [← portFinish_withCursor]
      exact exec_present (s := s.withCursor c) hd ho hp
    · rw [exec_missing hd ho hk hm] at h
      cases h
      exact exec_missing (s := s.withCursor c) hd ho hk hm
  · rw [exec_illegal hi] at h ⊢
    cases h
    rfl
  · cases h
    rfl

theorem step_withCursor {s t : State} (c : Nat) (h : step s = .next t) :
    step (s.withCursor c) = .next (t.withCursor c) := by
  have hr := step_reading h
  have hr' : (s.withCursor c).state = .reading := hr
  rcases s.header_cases with hb | ⟨h0, hb, hc, hb1⟩ | ⟨i, hh⟩
  · rw [step_firstByteMissing hr hb] at h
    cases h
    exact step_firstByteMissing hr' hb
  · rw [step_secondByteMissing hr hb hc hb1] at h
    cases h
    exact step_secondByteMissing hr' hb hc hb1
  · rw [step_of_headerAt hr hh] at h
    rw [step_of_headerAt (s := s.withCursor c) hr' hh]
    exact exec_withCursor c h

theorem decodeRun_withCursor (c k : Nat) (s : State) : decodeRun k (s.withCursor c) = (decodeRun k s).withCursor c := by
  induction k generalizing s with
  | zero => rfl
  | succ k ih =>
    by_cases hr : s.state = .reading
    · obtain ⟨t, hs⟩ := step_next hr
      rw [decodeRun_succ hs, decodeRun_succ (step_withCursor c hs), ih]
    · rw [decodeRun_not_reading hr, decodeRun_not_reading (s := s.withCursor c) hr]

/-- A start leaves nothing of the machine before it but the source side (R231). -/
theorem State.beginDecode_eq_withCursor {s u : State} (haw : s.aw = u.aw) (hsrc : s.src = u.src) (a : Nat) :
    u.beginDecode a = (s.beginDecode a).withCursor u.srcCursor := by
  simp only [State.beginDecode, State.withCursor, haw, hsrc]

/-- Settles O39: two starts over one source differ in the cursor alone, which no step reads. -/
theorem decodeIsDeterministic : Obligations.DecodeIsDeterministic := by
  intro a k s u r v haw hsrc hs hu hr hv
  rw [hostStart_accepted hs hr, hostStart_accepted hu hv, State.beginDecode_eq_withCursor haw hsrc,
    decodeRun_withCursor]
  exact ⟨rfl, rfl, rfl, rfl, rfl, rfl⟩

/-! ### Frames and forms of the data-bearing commands (R116, R117) -/

/-- Appending changes no cell but the new ones (R58). -/
theorem append_getElem?_frame (out v : List Byte) {k : Nat} (h : ¬ (out.length ≤ k ∧ k < out.length + v.length)) :
    (out ++ v)[k]? = out[k]? := by
  by_cases hk : k < out.length
  · exact List.getElem?_append_left hk
  · have hlen : (out ++ v).length ≤ k := by
      rw [List.length_append]
      omega
    rw [List.getElem?_eq_none hlen, List.getElem?_eq_none (by omega)]

/-- Settles O19: of the outcomes of `exec` a data-bearing command has four, three failures and the append. -/
theorem frameOfDataCommands : Obligations.FrameOfDataCommands := by
  intro i s t hd h
  rcases exec_cases i s with ⟨rfl, _⟩ | ⟨hi, _⟩ | ⟨_, _, hx⟩ | ⟨_, _, _, _, _, hx⟩ | ⟨_, _, _, _, hx⟩ |
    ⟨_, _, _, v, _, hv, hx⟩
  · cases hd
  · exact absurd hi (not_illegal_of_dataBearing hd)
  all_goals
    rw [hx] at h
    cases h
    refine ⟨rfl, rfl, rfl, fun _ => rfl, ?_⟩
  · exact .inr ⟨_, rfl, .inl rfl⟩
  · exact .inr ⟨_, rfl, .inr (.inl rfl)⟩
  · exact .inr ⟨_, rfl, .inr (.inr rfl)⟩
  · rw [← hv]
    exact .inl ⟨rfl, rfl, rfl, List.length_append, fun k hk => append_getElem?_frame s.out v hk⟩

/-- What the two forms of a command share: all but the header. -/
structure SameCommand (i j : Instr) : Prop where
  data : i.dataBearing = true ∧ j.dataBearing = true
  payloadSize_eq : j.payloadSize = i.payloadSize
  appendCount_eq : j.appendCount = i.appendCount
  produce_eq : ∀ got s, produce j got s = produce i got s

theorem TwoForms.sameCommand {short ext : Nat → Instr} (h : TwoForms short ext) (n : Nat) :
    SameCommand (short n) (ext n) := by
  cases h <;> exact ⟨⟨rfl, rfl⟩, rfl, rfl, fun _ _ => rfl⟩

theorem TwoForms.headerSize_eq {short ext : Nat → Instr} (h : TwoForms short ext) (n : Nat) :
    (short n).headerSize = 1 ∧ (ext n).headerSize = 2 := by
  cases h <;> exact ⟨rfl, rfl⟩

/-- The same bytes from `a` in one machine and from `b` in another. -/
def SamePayload (s u : State) (a b n : Nat) : Prop := ∀ j < n, s.srcByte (a + j) = u.srcByte (b + j)

theorem SamePayload.present {s u : State} {a b n : Nat} (h : SamePayload s u a b n) (hp : s.Present a n) :
    u.Present b n := fun j hj => h j hj ▸ hp j hj

theorem SamePayload.firstMissing {s u : State} {a b n k : Nat} (h : SamePayload s u a b n) (hk : k < n)
    (hm : s.FirstMissing a k) : u.FirstMissing b k :=
  ⟨fun j hj => h j (hj.trans hk) ▸ hm.1 j hj, h k hk ▸ hm.2⟩

theorem SamePayload.bytesAt_eq {s u : State} {a b n : Nat} (h : SamePayload s u a b n) :
    u.bytesAt b n = s.bytesAt a n :=
  List.filterMap_congr fun j hj => (h j (List.mem_range.mp hj)).symm

/-- What two machines agree on after one command each, and how far each `pc` came where they completed. -/
structure SameEffect (s u t v : State) (i j : Instr) : Prop where
  out_eq : t.out = v.out
  err_eq : t.err = v.err
  state_eq : t.state = v.state
  pc_eq : t.err = .none → t.pc = s.pc + i.totalSize ∧ v.pc = u.pc + j.totalSize

section
variable {i j : Instr} {s u : State}

theorem SameEffect.of_failure {e : ErrKind} (he : e ≠ .none) (l m : List Nat) :
    SameEffect s u (s.failedAfter e l) (u.failedAfter e m) i j :=
  ⟨rfl, rfl, rfl, fun hn => absurd hn he⟩

theorem SameCommand.overflowing_iff (hc : SameCommand i j) (hout : s.out = u.out) :
    u.Overflowing j ↔ s.Overflowing i := by
  simp only [State.Overflowing, hc.data, hc.appendCount_eq, State.outLen, hout]

theorem SameCommand.portFinish_sameEffect (hc : SameCommand i j) (hout : s.out = u.out) (herr : s.err = u.err)
    (hstate : s.state = u.state) (got : List Byte) (l m : List Nat) :
    SameEffect s u (portFinish i got (s.noteReads l)) (portFinish j got (u.noteReads m)) i j := by
  have same : produce j got u = produce i got s := (hc.produce_eq got u).trans (produce_congr hout.symm i got)
  simp only [portFinish, produce_noteReads, same]
  cases hp : produce i got s with
  | error e =>
    obtain ⟨rfl, _⟩ := produce_error hp
    exact .of_failure (by decide) l m
  | ok v => exact ⟨by simp [hout], herr, hstate, fun _ => ⟨rfl, rfl⟩⟩

/-- Two commands that differ in the header alone have the same effect over equal buffers and payloads. -/
theorem SameCommand.exec_sameEffect {t v : State} (hc : SameCommand i j) (hout : s.out = u.out)
    (herr : s.err = u.err) (hstate : s.state = u.state)
    (hpay : SamePayload s u (s.pc + i.headerSize) (u.pc + j.headerSize) i.payloadSize)
    (ht : exec i s = .next t) (hv : exec j u = .next v) : SameEffect s u t v i j := by
  obtain ⟨hi, hj⟩ := hc.data
  by_cases ho : s.Overflowing i
  · rw [exec_overflowing hi ho] at ht
    rw [exec_overflowing hj ((hc.overflowing_iff hout).mpr ho)] at hv
    cases ht
    cases hv
    exact .of_failure (by decide) _ _
  have ho' := mt (hc.overflowing_iff hout).mp ho
  rcases s.present_or_firstMissing (s.pc + i.headerSize) i.payloadSize with hp | ⟨k, hk, hm⟩
  · have hp' := hc.payloadSize_eq ▸ hpay.present hp
    rw [exec_present hi ho hp] at ht
    rw [exec_present hj ho' hp', hc.payloadSize_eq, hpay.bytesAt_eq] at hv
    cases ht
    cases hv
    exact hc.portFinish_sameEffect hout herr hstate _ _ _
  · rw [exec_missing hi ho hk hm] at ht
    rw [exec_missing hj ho' (hc.payloadSize_eq ▸ hk) (hpay.firstMissing hk hm)] at hv
    cases ht
    cases hv
    exact .of_failure (by decide) _ _

end

/-- Settles O18: the two forms differ in the header alone, by one byte. -/
theorem formsAgree : Obligations.FormsAgree := by
  intro short ext n s u t v hforms _ hout herr hstate hpay ht hv
  have hc := hforms.sameCommand n
  obtain ⟨hshort, hext⟩ := hforms.headerSize_eq n
  have effect := hc.exec_sameEffect hout herr hstate (by rwa [hshort, hext]) ht hv
  refine ⟨effect.out_eq, effect.err_eq, effect.state_eq, fun he hn => ?_⟩
  obtain ⟨htpc, hvpc⟩ := effect.pc_eq (he.trans hn)
  rw [htpc, hvpc, Instr.totalSize, Instr.totalSize, hshort, hext, hc.payloadSize_eq]
  omega

/-! ### Inside a command (R110, R230) -/

/-- The port has the record of `s`, and inside a command nothing else of `s` has changed either. -/
def PortState.Continues (n : PortState) (s : State) : Prop :=
  n.machine.reads = s.reads ∧ (n.phase ≠ .boundary → n.machine = s)

theorem PortState.Continues.at_boundary {s t : State} (h : t.reads = s.reads) : (atBoundary t).Continues s :=
  ⟨h, fun hn => absurd rfl hn⟩

theorem PortState.Continues.inside (s : State) (phase : Phase) : (PortState.mk s phase).Continues s :=
  ⟨rfl, fun _ => rfl⟩

theorem portAfterHeader_continues (i : Instr) (s : State) : (portAfterHeader i s).Continues s := by
  rcases instr_trichotomy i with hd | hi | rfl
  · rw [portAfterHeader_data hd]
    split
    · exact .at_boundary rfl
    · exact .inside s _
  · rw [portAfterHeader_illegal hi]
    exact .at_boundary rfl
  · exact .at_boundary rfl

theorem portFinish_reads (i : Instr) (got : List Byte) (s : State) : (portFinish i got s).reads = s.reads := by
  unfold portFinish
  cases produce i got s <;> rfl

/-- One transaction extends the record; a command it does not end has changed nothing else. -/
theorem portTick_continues {m n : PortState} (h : portTick m = some n) :
    n.Continues (m.machine.noteReads (m.machine.issuedTo m.address 0)) := by
  obtain ⟨_, h⟩ := Option.ite_none_right_eq_some.mp h
  rw [State.transact_eq] at h
  cases hb : m.machine.srcByte m.address with
  | none =>
    simp only [hb, Option.some_inj] at h
    exact h ▸ .at_boundary rfl
  | some b =>
    simp only [hb] at h
    cases hphase : m.phase with
    | boundary =>
      cases hc : classifyFirst b with
      | whole i =>
        simp only [hphase, hc, Option.some_inj] at h
        exact h ▸ portAfterHeader_continues i _
      | extended =>
        simp only [hphase, hc, Option.some_inj] at h
        exact h ▸ .inside _ _
    | secondHeader h0 =>
      simp only [hphase, Option.some_inj] at h
      exact h ▸ portAfterHeader_continues _ _
    | payload i got =>
      simp only [hphase] at h
      split at h <;> cases h
      · exact .inside _ _
      · exact .at_boundary (portFinish_reads i _ _)

theorem portTicks_add (j k : Nat) (m : PortState) : portTicks (j + k) m = (portTicks j m).bind (portTicks k) := by
  induction j generalizing m with
  | zero => rw [Nat.zero_add]; rfl
  | succ j ih =>
    rw [Nat.succ_add, portTicks, portTicks, Option.bind_assoc]
    exact congrArg _ (funext ih)

theorem portTicks_succ (k : Nat) (m : PortState) : portTicks (k + 1) m = (portTicks k m).bind portTick := by
  rw [portTicks_add]
  exact congrArg _ (funext fun n => Option.bind_fun_some (portTick n))

theorem portTicks_reads {k : Nat} {m n : PortState} (h : portTicks k m = some n) :
    m.machine.reads <+: n.machine.reads := by
  induction k generalizing n with
  | zero =>
    cases h
    exact List.prefix_rfl
  | succ k ih =>
    rw [portTicks_succ] at h
    obtain ⟨p, hp, hn⟩ := Option.bind_eq_some_iff.mp h
    obtain ⟨hreads, _⟩ := portTick_continues hn
    exact (ih hp).trans ⟨_, hreads.symm⟩

/-- Transactions none of which ended the command have only extended the record. -/
theorem portTicks_inside {k : Nat} {s : State} {m : PortState}
    (inside : ∀ j ≤ k, ∃ n, portTicks j (atBoundary s) = some n ∧ (j = 0 ∨ n.phase ≠ .boundary))
    (h : portTicks k (atBoundary s) = some m) : ∃ issued, m.machine = s.noteReads issued := by
  induction k generalizing m with
  | zero =>
    cases h
    exact ⟨[], s.noteReads_nil.symm⟩
  | succ k ih =>
    obtain ⟨n, hn, hphase⟩ := inside (k + 1) le_rfl
    obtain rfl : n = m := Option.some_inj.mp (hn.symm.trans h)
    rw [portTicks_succ] at h
    obtain ⟨p, hp, hm⟩ := Option.bind_eq_some_iff.mp h
    obtain ⟨issued, hp'⟩ := ih (fun j hj => inside j (hj.trans k.le_succ)) hp
    obtain ⟨_, hm'⟩ := portTick_continues hm
    rw [hm' (hphase.resolve_left k.succ_ne_zero), hp', State.noteReads_noteReads]
    exact ⟨_, rfl⟩

/-- The step ends at a boundary, so transactions inside the command come before its end and the step's record begins
with theirs. -/
theorem portTicks_inside_prefix {k : Nat} {s r : State} {m : PortState} (hs : step s = .next r)
    (inside : ∀ j ≤ k, ∃ n, portTicks j (atBoundary s) = some n ∧ (j = 0 ∨ n.phase ≠ .boundary))
    (h : portTicks k (atBoundary s) = some m) : m.machine.reads <+: r.reads := by
  obtain ⟨K, _, hend⟩ := sourcePortRefinesStep s r hs
  have before : k ≤ K := by
    by_contra after
    obtain ⟨n, hn, hphase⟩ := inside K (by omega)
    obtain rfl : n = atBoundary r := Option.some_inj.mp (hn.symm.trans hend)
    exact hphase.resolve_left (by omega) rfl
  rw [← Nat.add_sub_cancel' before, portTicks_add, h] at hend
  exact portTicks_reads hend

/-- Settles O54: inside a command only the record has grown, towards the step's, and of the rest reset keeps the source
side alone. -/
theorem commandsAreAtomic : Obligations.CommandsAreAtomic := by
  intro s r k pc' m _ hs inside h
  obtain ⟨issued, hm⟩ := portTicks_inside inside h
  have before := portTicks_inside_prefix hs inside h
  rw [hm] at before
  refine ⟨⟨issued, hm, before⟩, ?_⟩
  rw [portReset, hm]
  rfl

end Sys2Proof.Machine

/-! ## The bit-reversal permutation unit (spec/41_bit_reversal.md) -/

namespace Sys2Proof

/-- The wire that drives output bit `i` (R130). The `change` writes the width as the concatenation has it, eight
one-bit wires, so that the rule for a bit of a concatenation applies; each of the eight bits then selects its wire. -/
theorem getLsbD_rev8 (b : Byte) {i : Nat} (h : i < 8) : (rev8 b).getLsbD i = b.getLsbD (7 - i) := by
  change BitVec.getLsbD (w := 1 + 1 + 1 + 1 + 1 + 1 + 1 + 1) _ i = _
  unfold rev8
  simp only [BitVec.getLsbD_append, BitVec.getLsbD_extractLsb']
  interval_cases i <;> rfl

/-- Crossing the wires twice leads bit `i` through `7 - i` back to `7 - (7 - i) = i` (R131). -/
theorem rev8_involutive : Function.Involutive rev8 := fun b =>
  BitVec.eq_of_getLsbD_eq fun i hi => by
    rw [getLsbD_rev8 _ hi, getLsbD_rev8 _ (by omega), Nat.sub_sub_self (Nat.le_of_lt_succ hi)]

/-- Settles O42: each output bit by its wire; `rev8` is injective and surjective because it is an involution. -/
theorem bitReversal : Obligations.BitReversal :=
  ⟨fun b _ hi => getLsbD_rev8 b hi, rev8_involutive, fun _ _ h => rev8_involutive.injective h,
    rev8_involutive.surjective⟩

end Sys2Proof

/-! ## Literals and runs (spec/42_literal_and_runs.md) -/

namespace Sys2Proof.Machine

/-! ### Payloads of one and of two bytes (R86) -/

section
variable {s : State} {a : Nat}

theorem State.FirstMissing.zero (h : s.srcByte a = none) : s.FirstMissing a 0 :=
  ⟨fun j hj => absurd hj (Nat.not_lt_zero j), h⟩

theorem State.bytesAt_one {b : Byte} (h : s.srcByte a = some b) : s.bytesAt a 1 = [b] :=
  s.bytesAt_succ a 0 h

theorem State.bytesAt_two {b c : Byte} (h : s.srcByte a = some b) (h' : s.srcByte (a + 1) = some c) :
    s.bytesAt a 2 = [b, c] := by
  rw [s.bytesAt_succ a 1 h, State.bytesAt_one h']

end

/-! ### A data-bearing command in its short or its extended form (R115 to R117) -/

/-- Completion changes the buffer, `pc` and the record alone (R117). -/
theorem Appended.of_append {s : State} {v : List Byte} {n : Nat} {cell : Nat → Option Byte} (size : Nat)
    (issued : List Nat) (len : v.length = n) (cells : ∀ k < n, v[k]? = cell k) :
    Appended s { s with out := s.out ++ v, pc := s.pc + size, reads := s.reads ++ issued } size n issued cell where
  outLen_eq := by rw [← len]; exact List.length_append
  new_cells k hk := by
    rw [← cells k hk, State.outByte, List.getElem?_append_right (Nat.le_add_right ..), Nat.add_sub_cancel_left]
  old_cells _ hk := List.getElem?_append_left hk
  pc_eq := rfl
  reads_eq := rfl
  state_eq := rfl
  err_eq := rfl
  aw_eq := rfl
  src_eq := rfl
  srcCursor_eq := rfl

section
variable {short ext : Nat → Instr} {i : Instr} {header length : Nat} {s : State}

theorem FormOf.headerSize_eq (form : FormOf short ext i header length) (two : TwoForms short ext) :
    i.headerSize = header := by
  obtain ⟨hshort, hext⟩ := two.headerSize_eq length
  rcases form with ⟨rfl, rfl, _⟩ | ⟨rfl, rfl, _⟩
  · exact hshort
  · exact hext

/-- Either form differs from the short one in the header alone (R116). -/
theorem FormOf.sameCommand (form : FormOf short ext i header length) (two : TwoForms short ext) :
    SameCommand (short length) i := by
  have forms := two.sameCommand length
  rcases form with ⟨rfl, _, _⟩ | ⟨rfl, _, _⟩
  · exact ⟨⟨forms.data.1, forms.data.1⟩, rfl, rfl, fun _ _ => rfl⟩
  · exact forms

theorem FormOf.exec_overflowing (form : FormOf short ext i header length) (two : TwoForms short ext)
    (tooMany : Config.outMax < s.outLen + (short length).appendCount) :
    exec i s = .next (s.failedAfter .outputOverflow []) := by
  have same := form.sameCommand two
  rw [← same.appendCount_eq] at tooMany
  exact Machine.exec_overflowing same.data.2 ⟨same.data.2, tooMany⟩

theorem FormOf.not_overflowing (form : FormOf short ext i header length) (two : TwoForms short ext)
    (fits : s.outLen + (short length).appendCount ≤ Config.outMax) : ¬ s.Overflowing i := by
  rintro ⟨_, tooMany⟩
  rw [(form.sameCommand two).appendCount_eq] at tooMany
  exact Nat.not_lt_of_le fits tooMany

theorem FormOf.exec_missing (form : FormOf short ext i header length) (two : TwoForms short ext)
    (fits : s.outLen + (short length).appendCount ≤ Config.outMax) {k : Nat} (hk : k < (short length).payloadSize)
    (missing : s.FirstMissing (s.pc + header) k) :
    exec i s = .next (s.failedAfter .truncatedInput (s.issuedTo (s.pc + header) k)) := by
  have same := form.sameCommand two
  rw [← form.headerSize_eq two] at missing ⊢
  exact Machine.exec_missing same.data.2 (form.not_overflowing two fits) (same.payloadSize_eq ▸ hk) missing

/-- With room and payload a command appends what it produces from its payload. -/
theorem FormOf.exec_appends (form : FormOf short ext i header length) (two : TwoForms short ext)
    (fits : s.outLen + (short length).appendCount ≤ Config.outMax)
    (present : s.Present (s.pc + header) (short length).payloadSize) {v : List Byte}
    (produced : produce (short length) (s.bytesAt (s.pc + header) (short length).payloadSize) s = .ok v)
    {cell : Nat → Option Byte} (cells : ∀ k < (short length).appendCount, v[k]? = cell k) :
    ∃ t, exec i s = .next t ∧
      Appended s t (header + (short length).payloadSize) (short length).appendCount
        (List.range' (s.pc + header) (short length).payloadSize) cell := by
  have same := form.sameCommand two
  have len := produce_length same.data.1 (State.bytesAt_length present) produced
  rw [← same.payloadSize_eq, ← form.headerSize_eq two] at present produced ⊢
  rw [← same.produce_eq] at produced
  refine ⟨_, exec_present same.data.2 (form.not_overflowing two fits) present, ?_⟩
  rw [portFinish, produce_noteReads, produced]
  exact .of_append _ _ len cells

end

/-! ### What the runs are made of (R142, R143, R146) -/

theorem produce_runb (n : Nat) (v : Byte) (s : State) : produce (.runb n) [v] s = .ok (byteRun v n) :=
  congrArg Except.ok (List.flatten_replicate_singleton ..)

theorem produce_runw (n : Nat) (v0 v1 : Byte) (s : State) : produce (.runw n) [v0, v1] s = .ok (pairRun v0 v1 n) := rfl

theorem produce_runi (n : Nat) (v : Byte) (s : State) : produce (.runi n) [v] s = .ok (incrementRun v n) :=
  congrArg Except.ok (List.flatMap_singleton ..)

/-! ### The four commands -/

/-- Settles O8: the bytes a literal appends are its payload. -/
theorem literalCommand : Obligations.LiteralCommand := by
  refine ⟨fun _ hi => CommandCode.lit.decode_short_range [] (Nat.zero_le _) hi,
    fun _ h1 => CommandCode.lit.decode_ext_range h1 [], fun i header length s form => ?_⟩
  refine ⟨form.exec_overflowing .lit, fun fits _ => form.exec_missing .lit fits, fun fits present => ?_⟩
  exact form.exec_appends .lit fits present rfl fun _ hk => State.bytesAt_getElem? present hk

/-- Settles O9: the payload byte is produced as a `byteRun`. -/
theorem runByteCommand : Obligations.RunByteCommand := by
  refine ⟨fun _ => CommandCode.runb.decode_short_range [], fun _ h1 => CommandCode.runb.decode_ext_range h1 [],
    fun i header length s form => ?_⟩
  refine ⟨form.exec_overflowing .runb, fun fits missing => form.exec_missing .runb fits Nat.one_pos (.zero missing),
    fun v fits byte => ?_⟩
  refine form.exec_appends .runb fits (.one byte) (v := byteRun v length) ?_ fun _ hk => byteRun_getElem? hk
  exact State.bytesAt_one byte ▸ produce_runb length v s

/-- Settles O10: the payload bytes are produced as a `pairRun`, cell `k` of which depends on whether `k` is even. -/
theorem runWordCommand : Obligations.RunWordCommand := by
  refine ⟨fun _ => CommandCode.runw.decode_short_range [], fun _ h1 => CommandCode.runw.decode_ext_range h1 [],
    fun i header length s form => ?_⟩
  refine ⟨form.exec_overflowing .runw, fun fits _ => form.exec_missing .runw fits, fun v0 v1 fits low high => ?_⟩
  refine form.exec_appends .runw fits (.two low high) (v := pairRun v0 v1 length) ?_ fun k hk => ?_
  · exact State.bytesAt_two low high ▸ produce_runw length v0 v1 s
  · rw [pairRun_getElem? hk, apply_ite some]

/-- Settles O11: the payload byte is produced as an `incrementRun`. -/
theorem runIncrementCommand : Obligations.RunIncrementCommand := by
  refine ⟨fun _ => CommandCode.runi.decode_short_range [], fun _ h1 => CommandCode.runi.decode_ext_range h1 [],
    fun i header length s form => ?_⟩
  refine ⟨form.exec_overflowing .runi, fun fits missing => form.exec_missing .runi fits Nat.one_pos (.zero missing),
    fun v fits byte => ?_⟩
  refine form.exec_appends .runi fits (.one byte) (v := incrementRun v length) ?_ fun _ hk => incrementRun_getElem? hk
  exact State.bytesAt_one byte ▸ produce_runi length v s

end Sys2Proof.Machine

/-! ## Back-references (spec/43_back_references.md) -/

namespace Sys2Proof.Machine

/-! ### The payload of a back-reference (R86, R87, R160) -/

/-- A back-reference is data-bearing, and its payload is the two bytes of the offset. -/
theorem Instr.payload_of_backReference {i : Instr} (h : i.backReference = true) :
    i.dataBearing = true ∧ i.payloadSize = 2 := by
  cases i with
  | bref _ | brefX _ | mref _ | mrefX _ | rref _ | rrefX _ => exact ⟨rfl, rfl⟩
  | lit _ | litX _ | runb _ | runbX _ | runw _ | runwX _ | runi _ | runiX _ | endMark | illFC _ | illFD _ | illFE _ =>
    cases h

/-- The offset is there exactly where both payload bytes are, and is the number they make. -/
theorem State.offsetAt_eq_some_iff {s : State} {a off : Nat} :
    s.offsetAt a = some off ↔ s.Present a 2 ∧ beNumber (s.bytesAt a 2) = off := by
  constructor
  · intro h
    cases low : s.srcByte a with
    | none => simp [State.offsetAt, low] at h
    | some p0 =>
      cases high : s.srcByte (a + 1) with
      | none => simp [State.offsetAt, high] at h
      | some p1 =>
        refine ⟨.two low high, ?_⟩
        rw [State.bytesAt_two low high, beNumber_pair]
        simpa [State.offsetAt, low, high] using h
  · rintro ⟨present, rfl⟩
    obtain ⟨p0, low⟩ := present.head
    obtain ⟨p1, high⟩ := present.tail.head
    rw [State.bytesAt_two low high, beNumber_pair]
    simp [State.offsetAt, low, high]

theorem State.not_payloadMissing_iff {s : State} {i : Instr} :
    ¬ s.PayloadMissing i ↔ s.Present (s.pc + i.headerSize) i.payloadSize := by
  simp [State.PayloadMissing, State.Present, Option.isSome_iff_ne_none]

/-! ### The range check (R160 to R163) -/

/-- The second check of `RREF` in signed and in unsigned form (R163). -/
theorem rangeOk_rref_iff {n off outLen : Nat} :
    rangeOk (.rref n) off outLen ↔ off < outLen ∧ n ≤ off + 1 := by
  simp only [rangeOk]
  omega

theorem produce_eq_error_iff {i : Instr} (hb : i.backReference = true) (got : List Byte) (s : State) :
    produce i got s = .error .backReferenceOutOfRange ↔ ¬ rangeOk i (beNumber got) s.outLen := by
  cases i with
  | bref n | brefX n | mref n | mrefX n => simp [produce, rangeOk]
  | rref n | rrefX n =>
    change _ ↔ ¬ rangeOk (.rref n) _ _
    rw [rangeOk_rref_iff]
    simp [produce]
  | lit _ | litX _ | runb _ | runbX _ | runw _ | runwX _ | runi _ | runiX _ | endMark | illFC _ | illFD _ | illFE _ =>
    cases hb

/-- A well-formed command reads at least the cell of its offset, which the check puts below `out_len`. -/
theorem lt_of_rangeOk {i : Instr} {off outLen : Nat} (hb : i.backReference = true) (hw : i.wellFormed = true)
    (ok : rangeOk i off outLen) : off < outLen := by
  cases i with
  | bref n | brefX n | mref n | mrefX n =>
    obtain ⟨positive, _⟩ := of_decide_eq_true hw
    exact Nat.lt_of_lt_of_le (Nat.lt_add_of_pos_right positive) ok
  | rref n | rrefX n => exact ok.1
  | lit _ | litX _ | runb _ | runbX _ | runw _ | runwX _ | runi _ | runiX _ | endMark | illFC _ | illFD _ | illFE _ =>
    cases hb

/-- A payload that is read and rejected is failure entry after its transactions. -/
theorem exec_rejected {i : Instr} {s : State} {e : ErrKind} (data : i.dataBearing = true) (fits : ¬ s.Overflowing i)
    (present : s.Present (s.pc + i.headerSize) i.payloadSize)
    (rejected : produce i (s.bytesAt (s.pc + i.headerSize) i.payloadSize) s = .error e) :
    exec i s = .next (s.failedAfter e (List.range' (s.pc + i.headerSize) i.payloadSize)) := by
  rw [exec_present data fits present, portFinish, produce_noteReads, rejected]
  rfl

theorem exec_outOfRange {i : Instr} {s : State} (hb : i.backReference = true) (fits : ¬ s.Overflowing i)
    (bad : s.OutOfRange i) :
    exec i s = .next (s.failedAfter .backReferenceOutOfRange (List.range' (s.pc + i.headerSize) 2)) := by
  obtain ⟨off, offset, notOk⟩ := bad
  obtain ⟨present, rfl⟩ := State.offsetAt_eq_some_iff.mp offset
  obtain ⟨data, size⟩ := Instr.payload_of_backReference hb
  rw [← size] at present notOk ⊢
  exact exec_rejected data fits present ((produce_eq_error_iff hb _ s).mpr notOk)

/-- `BackReferenceOutOfRange` comes from the range check alone, behind the ceiling check and the payload read. -/
theorem outOfRange_of_exec_err {i : Instr} {s t : State} (h : exec i s = .next t) (noErr : s.err = .none)
    (raised : t.err = .backReferenceOutOfRange) :
    i.backReference = true ∧ ¬ s.Overflowing i ∧ ¬ s.PayloadMissing i ∧ s.OutOfRange i := by
  rcases exec_cases i s with ⟨_, hx⟩ | ⟨_, hx⟩ | ⟨_, _, hx⟩ | ⟨_, _, _, _, _, hx⟩ |
    ⟨_, fits, present, rejected, _⟩ | ⟨_, _, _, _, _, _, hx⟩
  pick_goal 5
  · obtain ⟨_, hb⟩ := produce_error rejected
    refine ⟨hb, fits, State.not_payloadMissing_iff.mpr present, _, ?_, (produce_eq_error_iff hb _ s).mp rejected⟩
    obtain ⟨_, size⟩ := Instr.payload_of_backReference hb
    rw [size] at present ⊢
    exact State.offsetAt_eq_some_iff.mpr ⟨present, rfl⟩
  all_goals
    rw [hx] at h
    cases h
    simp [noErr] at raised

/-- A back-reference that does not fail has passed the ceiling check and the range check. -/
theorem exec_inRange {i : Instr} {s t : State} {off : Nat} (hb : i.backReference = true) (h : exec i s = .next t)
    (notFailed : t.state ≠ .failed) (offset : s.offsetAt (s.pc + i.headerSize) = some off) :
    ¬ s.Overflowing i ∧ rangeOk i off s.outLen := by
  have fits : ¬ s.Overflowing i := fun tooMany => by
    rw [exec_overflowing (Instr.payload_of_backReference hb).1 tooMany] at h
    cases h
    exact notFailed rfl
  refine ⟨fits, not_not.mp fun notOk => ?_⟩
  rw [exec_outOfRange hb fits ⟨off, offset, notOk⟩] at h
  cases h
  exact notFailed rfl

/-- Settles O24: the step is `exec` behind its header, and of its outcomes the rejected payload alone raises this
error, after the two transactions that follow the header's. -/
theorem rangeChecksRaise : Obligations.RangeChecksRaise := by
  refine ⟨fun s t i hr noErr header hs => ?_, fun off length outLen =>
    ⟨Nat.not_le, Nat.not_le, ?_, Iff.rfl, Iff.rfl, Iff.rfl⟩⟩
  · rw [step_of_headerAt hr header] at hs
    have cause := outOfRange_of_exec_err hs noErr
    refine ⟨⟨cause, fun ⟨hb, fits, _, bad⟩ => ?_⟩, fun raised => ?_⟩
    · cases (exec_outOfRange (s := s.noteReads _) hb fits bad).symm.trans hs
      rfl
    · obtain ⟨hb, fits, _, bad⟩ := cause raised
      cases (exec_outOfRange hb fits bad).symm.trans hs
      refine ⟨?_, rfl⟩
      simp
  · simp only [rangeOk]
    omega

/-! ### The three commands (R161 to R163) -/

theorem produce_bref (n : Nat) (p0 p1 : Byte) (s : State) :
    produce (.bref n) [p0, p1] s =
      if be16 p0 p1 + n ≤ s.outLen then .ok (forwardRange s (be16 p0 p1) n)
      else .error .backReferenceOutOfRange := by
  rw [produce, beNumber_pair]

theorem produce_mref (n : Nat) (p0 p1 : Byte) (s : State) :
    produce (.mref n) [p0, p1] s =
      if be16 p0 p1 + n ≤ s.outLen then .ok ((forwardRange s (be16 p0 p1) n).map rev8)
      else .error .backReferenceOutOfRange := by
  rw [produce, beNumber_pair]

theorem produce_rref (n : Nat) (p0 p1 : Byte) (s : State) :
    produce (.rref n) [p0, p1] s =
      if be16 p0 p1 < s.outLen ∧ n ≤ be16 p0 p1 + 1 then .ok (backwardRange s (be16 p0 p1) n)
      else .error .backReferenceOutOfRange := by
  rw [produce, beNumber_pair]

/-- With room and payload a command whose payload is rejected fails. -/
theorem FormOf.exec_rejected {short ext : Nat → Instr} {i : Instr} {header length : Nat} {s : State} {e : ErrKind}
    (form : FormOf short ext i header length) (two : TwoForms short ext)
    (fits : s.outLen + (short length).appendCount ≤ Config.outMax)
    (present : s.Present (s.pc + header) (short length).payloadSize)
    (rejected : produce (short length) (s.bytesAt (s.pc + header) (short length).payloadSize) s = .error e) :
    exec i s = .next (s.failedAfter e (List.range' (s.pc + header) (short length).payloadSize)) := by
  have same := form.sameCommand two
  rw [← same.payloadSize_eq, ← form.headerSize_eq two] at present rejected ⊢
  rw [← same.produce_eq] at rejected
  exact Machine.exec_rejected same.data.2 (form.not_overflowing two fits) present rejected

/-- Settles O12: the range check stands between the payload and a `forwardRange`. -/
theorem backRefCommand : Obligations.BackRefCommand := by
  refine ⟨fun _ => CommandCode.bref.decode_short_range [], fun _ h1 => CommandCode.bref.decode_ext_range h1 [],
    fun i header length s form => ?_⟩
  refine ⟨form.exec_overflowing .bref, fun fits _ => form.exec_missing .bref fits, fun p0 p1 fits low high => ?_⟩
  have produced := State.bytesAt_two low high ▸ produce_bref length p0 p1 s
  refine ⟨fun beyond => ?_, fun inRange => ?_⟩
  · exact form.exec_rejected .bref fits (.two low high) (produced.trans (if_neg (Nat.not_le_of_lt beyond)))
  · exact form.exec_appends .bref fits (.two low high) (produced.trans (if_pos inRange))
      fun _ hk => forwardRange_getElem? inRange hk

/-- Settles O13: as for `BREF`, each cell passed through `rev8`. -/
theorem mirrorBackRefCommand : Obligations.MirrorBackRefCommand := by
  refine ⟨fun _ => CommandCode.mref.decode_short_range [], fun _ h1 => CommandCode.mref.decode_ext_range h1 [],
    fun i header length s form => ?_⟩
  refine ⟨form.exec_overflowing .mref, fun fits _ => form.exec_missing .mref fits, fun p0 p1 fits low high => ?_⟩
  have produced := State.bytesAt_two low high ▸ produce_mref length p0 p1 s
  refine ⟨fun beyond => ?_, fun inRange => ?_⟩
  · exact form.exec_rejected .mref fits (.two low high) (produced.trans (if_neg (Nat.not_le_of_lt beyond)))
  · have cells : ∀ k < length, ((forwardRange s (be16 p0 p1) length).map rev8)[k]? =
        (s.outByte (be16 p0 p1 + k)).map rev8 := fun k hk => by
      rw [List.getElem?_map, forwardRange_getElem? (off := be16 p0 p1) inRange hk]
    obtain ⟨t, next, appended⟩ :=
      form.exec_appends .mref fits (.two low high) (produced.trans (if_pos inRange)) cells
    refine ⟨t, next, appended, fun k hk b c read written j hj => ?_⟩
    have mirrored := appended.new_cells k hk
    rw [written, show s.outByte (be16 p0 p1 + k) = some b from read, Option.map_some] at mirrored
    cases mirrored
    exact getLsbD_rev8 b hj

/-- Settles O14: both range checks stand between the payload and a `backwardRange`. -/
theorem reverseBackRefCommand : Obligations.ReverseBackRefCommand := by
  refine ⟨fun _ => CommandCode.rref.decode_short_range [], fun _ h1 => CommandCode.rref.decode_ext_range h1 [],
    fun i header length s form => ?_⟩
  refine ⟨form.exec_overflowing .rref, fun fits _ => form.exec_missing .rref fits, fun p0 p1 fits low high => ?_⟩
  have produced := State.bytesAt_two low high ▸ produce_rref length p0 p1 s
  have checks : rangeOk (.rref length) (be16 p0 p1) s.outLen ↔ _ := rangeOk_rref_iff
  refine ⟨fun bad => ?_, fun below above => ?_⟩
  · have notOk : ¬ rangeOk (.rref length) (be16 p0 p1) s.outLen := fun ⟨below, above⟩ =>
      bad.elim (Nat.not_le_of_lt below) (Int.not_lt.mpr above)
    exact form.exec_rejected .rref fits (.two low high) (produced.trans (if_neg (checks.not.mp notOk)))
  · exact form.exec_appends .rref fits (.two low high) (produced.trans (if_pos (checks.mp ⟨below, above⟩)))
      fun _ hk => backwardRange_getElem? below hk

/-! ### Laws of the family (R164, R165) -/

/-- Where every round reads a cell that was there before the copy, the cells appended on the way do not matter. -/
theorem copyOneByOne_eq (f : Byte → Byte) (index : Nat → Nat) (n : Nat) {out : List Byte}
    (before : ∀ k < n, index k < out.length) :
    copyOneByOne f index n out = out ++ ((List.range n).filterMap fun k => out[index k]?).map f := by
  induction n with
  | zero => simp [copyOneByOne]
  | succ n ih =>
    have last := before n (Nat.lt_succ_self n)
    rw [copyOneByOne, ih fun k hk => before k (Nat.lt_succ_of_lt hk), List.getElem?_append_left last,
      List.getElem?_eq_getElem last, List.range_succ, List.filterMap_append, List.map_append]
    simp [List.getElem?_eq_getElem last]

/-- Settles O43: each index the copy reads is below the old `out_len`. -/
theorem copyOrderDoesNotMatter : Obligations.CopyOrderDoesNotMatter := by
  refine fun s off length => ⟨fun inRange => ?_, fun below _ => ?_⟩
  · have before : ∀ k < length, off + k < s.outLen := fun k hk => by omega
    refine ⟨?_, copyOneByOne_eq rev8 _ length before⟩
    rw [copyOneByOne_eq id _ length before, List.map_id]
    rfl
  · rw [copyOneByOne_eq id _ length fun k _ => Nat.lt_of_le_of_lt (Nat.sub_le off k) below, List.map_id]
    rfl

/-- Settles O44: what completes passed the range check, which puts the offset below `out_len`, and the ceiling check. -/
theorem lastOffsetNeverPasses : Obligations.LastOffsetNeverPasses := by
  refine fun i s t hb hw inv h => ⟨fun offset => ?_, fun off n form offset _ reading => ?_⟩
  · by_contra notFailed
    obtain ⟨_, ok⟩ := exec_inRange hb h notFailed offset
    exact Nat.not_lt_of_le inv.outLen_le (lt_of_rangeOk hb hw ok)
  · obtain ⟨fits, ok⟩ := exec_inRange hb h (by simp [reading]) offset
    have room : s.outLen + i.appendCount ≤ 65535 :=
      Nat.le_of_not_lt fun tooMany => fits ⟨(Instr.payload_of_backReference hb).1, tooMany⟩
    have count : i.appendCount = n ∧ off + n ≤ s.outLen := by
      simp only [List.mem_cons, List.not_mem_nil, or_false] at form
      rcases form with rfl | rfl | rfl | rfl <;> exact ⟨rfl, ok⟩
    omega

end Sys2Proof.Machine

/-! ## END and host control (spec/44_end_and_host_control.md) -/

namespace Sys2Proof.Machine

/-! ### END and the illegal headers (R180, R114) -/

/-- Settles O15: the byte 0xFF is a whole header, that of `END`; without it the header fetch fails. -/
theorem endCommand : Obligations.EndCommand :=
  ⟨exec_endMark, fun _ hr byte => (step_of_headerAt hr (.of_whole byte rfl)).trans (exec_endMark _),
    fun _ => step_firstByteMissing⟩

/-- What is not data-bearing is `END`, or an illegal header, which has failure entry as its only outcome. -/
theorem exec_not_dataBearing {i : Instr} {s t : State} (hd : i.dataBearing = false) (h : exec i s = .next t) :
    (i = .endMark ∧ t = s.finish) ∨ (i ≠ .endMark ∧ t = s.failedAfter .unknownCommand []) := by
  rcases instr_trichotomy i with data | illegal | rfl
  · rw [hd] at data
    cases data
  · rw [exec_illegal illegal] at h
    cases h
    refine .inr ⟨?_, rfl⟩
    rintro rfl
    cases illegal
  · cases h
    exact .inl ⟨rfl, rfl⟩

/-- Settles O20: `finish` writes `pc` and `state`, failure entry `err`, the buffer and `state`. -/
theorem frameOfEndAndIllegal : Obligations.FrameOfEndAndIllegal := by
  intro i s t hd h
  rcases exec_not_dataBearing hd h with ⟨isEnd, rfl⟩ | ⟨notEnd, rfl⟩
  · exact ⟨rfl, rfl, rfl, rfl, fun _ => rfl, fun _ => ⟨rfl, fun _ => rfl⟩, fun notEnd => absurd isEnd notEnd⟩
  · exact ⟨rfl, rfl, rfl, List.append_nil _, fun _ => rfl, fun isEnd => absurd isEnd notEnd,
      fun _ => ⟨rfl, rfl, rfl, fun _ => rfl⟩⟩

/-! ### The end of a run (R181, R186) -/

/-- Of the outcomes of a step only `END` leads to `Done`. -/
theorem step_to_done {s t : State} (h : step s = .next t) (done : t.state = .done) :
    t = { s with pc := s.pc + 1, state := .done, reads := s.reads ++ [s.pc] } := by
  have hr := step_reading h
  rcases (step_result hr h).outcome with ⟨_, _, _, rfl⟩ | ⟨_, next⟩ | ⟨_, _, _, _, rfl⟩
  · cases done
  · exact next
  · rw [hr] at done
    cases done

/-- Of the outcomes of a step only failure entry leads to `Failed`. -/
theorem step_to_failed {s t : State} (h : step s = .next t) (failed : t.state = .failed) :
    ∃ e issued, e ≠ .none ∧ t = s.failedAfter e issued := by
  have hr := step_reading h
  rcases (step_result hr h).outcome with failure | ⟨_, rfl⟩ | ⟨_, _, _, _, rfl⟩
  · exact failure
  · cases failed
  · rw [hr] at failed
    cases failed

/-- Settles O40: the step that ends the run is `END` or failure entry; it keeps the invariant, so that `OUT_LEN` reads
`out_len`, and `END` leaves `err` as it is in `Reading`, where it is 0. -/
theorem hostReceivesResult : Obligations.HostReceivesResult := by
  intro s t inv hr h
  obtain ⟨fields, _, _, lenReads, addrReads, _⟩ := hostRegisters
  obtain ⟨_, _, status⟩ := fields t
  have len := lenReads t (stepKeepsInvariant s t inv h)
  have addr := addrReads t
  refine ⟨fun done => ?_, fun failed => ?_⟩
  · have port := State.outRd_done done
    have refused : ∀ i : BitVec 16, t.outLen ≤ i.toNat → t.outRd i = none := fun i beyond =>
      (outReadPort t i).2 fun ⟨_, below⟩ => Nat.not_lt_of_le beyond below
    obtain rfl := step_to_done h done
    refine ⟨rfl, len, status.trans ?_, fun i below => ⟨port i, ?_⟩, refused, addr⟩
    · rw [inv.err_none_of_reading hr]
      rfl
    · exact port i ▸ State.outByte_isSome.mpr below
  · have refused := State.outRd_not_done (s := t) (by simp [failed])
    obtain ⟨e, issued, he, rfl⟩ := step_to_failed h failed
    exact ⟨len, refused, status, he, addr⟩

/-- Settles O41: there is no step in `Done`, and the moves left write only the source content or the cursor. -/
theorem doneIsStable : Obligations.DoneIsStable := by
  intro e s t done keeps h
  cases act_result h with
  | decoded reading =>
    rw [done] at reading
    cases reading
  | unchanged _ notDecode next =>
    subst next
    exact ⟨notDecode, done, rfl, rfl, rfl⟩
  | placed _ _ _ next | cursorMoved _ _ next =>
    subst next
    exact ⟨by simp, done, rfl, rfl, rfl⟩
  | started _ _ _ register => rcases register with ⟨rfl, _⟩ | ⟨rfl, _⟩ <;> cases keeps
  | wasReset => cases keeps

/-! ### The host's starts and reads (R182 to R185) -/

/-- Outside `Reading` a start at an address that fits in AW bits is accepted (R182). -/
theorem hostStart_begins {a : Nat} {s : State} (fits : a < 2 ^ s.aw) (notReading : s.state ≠ .reading) :
    hostStart a s = .next (s.beginDecode a) := by
  rw [hostStart, if_neg (Nat.not_le_of_lt fits)]
  cases hs : s.state with
  | reading => exact absurd hs notReading
  | idle | done | failed => rfl

/-- A start in `Reading` is ignored (R184). -/
theorem hostStart_reading {a : Nat} {s : State} (fits : a < 2 ^ s.aw) (reading : s.state = .reading) :
    hostStart a s = .next s := by
  rw [hostStart, if_neg (Nat.not_le_of_lt fits), reading]

/-- Settles O45: an accepted start is `beginDecode`, which empties the buffer. -/
theorem startBeginsDecode : Obligations.StartBeginsDecode := by
  intro a s fits notReading
  refine ⟨hostStart_begins fits notReading, fun t h => ?_⟩
  rw [hostStart_accepted notReading h]
  exact ⟨rfl, fun _ => rfl⟩

/-- Settles O46: a write of `START_CUR` is `hostStart` at the cursor. -/
theorem startAtCursorSamplesCursor : Obligations.StartAtCursorSamplesCursor :=
  fun _ _ fits notReading => ⟨rfl, hostStart_begins fits notReading⟩

/-- Settles O47: both starts are `hostStart`, which answers the state itself in `Reading`. -/
theorem startWhileReadingIsIgnored : Obligations.StartWhileReadingIsIgnored :=
  fun _ _ _ reading fits cursorFits => ⟨hostStart_reading fits reading, hostStart_reading cursorFits reading⟩

/-- Settles O50: the moves by which the host reads answer the state itself. -/
theorem hostReadsChangeNothing : Obligations.HostReadsChangeNothing := fun _ _ _ => ⟨rfl, rfl⟩

end Sys2Proof.Machine

/-! ## Exceptions (spec/60_exceptions.md) -/

namespace Sys2Proof.Machine

/-! ### The error of a command, the first one in the order of its tests (R205) -/

section
variable {s : State} {i : Instr} {e : ErrKind}

/-- The tests 4 to 7 as a chain: each one is met where those before it are not (R205). -/
theorem State.commandRaises_iff :
    s.CommandRaises i e ↔
      (i.illegal ∧ e = .unknownCommand) ∨
      (¬ i.illegal ∧ s.Overflowing i ∧ e = .outputOverflow) ∨
      (¬ i.illegal ∧ ¬ s.Overflowing i ∧ s.PayloadMissing i ∧ e = .truncatedInput) ∨
      (¬ i.illegal ∧ ¬ s.Overflowing i ∧ ¬ s.PayloadMissing i ∧ s.OutOfRange i ∧ e = .backReferenceOutOfRange) ∨
      (¬ i.illegal ∧ ¬ s.Overflowing i ∧ ¬ s.PayloadMissing i ∧ ¬ s.OutOfRange i ∧ e = .none) := by
  constructor
  · intro h
    by_cases illegal : i.illegal
    · exact .inl ⟨illegal, h.unknown illegal⟩
    by_cases tooMany : s.Overflowing i
    · exact .inr (.inl ⟨illegal, tooMany, h.overflow illegal tooMany⟩)
    by_cases missing : s.PayloadMissing i
    · exact .inr (.inr (.inl ⟨illegal, tooMany, missing, h.truncated illegal tooMany missing⟩))
    by_cases bad : s.OutOfRange i
    · exact .inr (.inr (.inr (.inl ⟨illegal, tooMany, missing, bad, h.outOfRange illegal tooMany missing bad⟩)))
    · exact .inr (.inr (.inr (.inr ⟨illegal, tooMany, missing, bad, h.noError illegal tooMany missing bad⟩)))
  · rintro (⟨_, rfl⟩ | ⟨_, _, rfl⟩ | ⟨_, _, _, rfl⟩ | ⟨_, _, _, _, rfl⟩ | ⟨_, _, _, _, rfl⟩) <;>
      constructor <;> simp [*]

theorem State.CommandRaises.unknownCommand_iff (h : s.CommandRaises i e) : e = .unknownCommand ↔ i.illegal := by
  refine ⟨fun raised => ?_, h.unknown⟩
  subst raised
  simpa using State.commandRaises_iff.mp h

theorem State.CommandRaises.outputOverflow_iff (h : s.CommandRaises i e) :
    e = .outputOverflow ↔ s.Overflowing i := by
  refine ⟨fun raised => ?_, fun tooMany => h.overflow (not_illegal_of_dataBearing tooMany.1) tooMany⟩
  subst raised
  obtain ⟨_, tooMany⟩ : ¬ i.illegal ∧ s.Overflowing i := by simpa using State.commandRaises_iff.mp h
  exact tooMany

theorem State.CommandRaises.truncatedInput_iff (h : s.CommandRaises i e) :
    e = .truncatedInput ↔ ¬ i.illegal ∧ ¬ s.Overflowing i ∧ s.PayloadMissing i := by
  refine ⟨fun raised => ?_, fun ⟨legal, fits, missing⟩ => h.truncated legal fits missing⟩
  subst raised
  simpa using State.commandRaises_iff.mp h

/-- No test reads the record of transactions (log entry 7). -/
theorem State.CommandRaises.of_noteReads {l : List Nat} (h : (s.noteReads l).CommandRaises i e) :
    s.CommandRaises i e :=
  ⟨h.unknown, h.overflow, h.truncated, h.outOfRange, h.noError⟩

end

/-- Only a back-reference has a range check that can fail (R203). -/
theorem State.OutOfRange.backReference {s : State} {i : Instr} (h : s.OutOfRange i) : i.backReference = true := by
  obtain ⟨off, _, notOk⟩ := h
  cases i with
  | bref _ | brefX _ | mref _ | mrefX _ | rref _ | rrefX _ => rfl
  | lit _ | litX _ | runb _ | runbX _ | runw _ | runwX _ | runi _ | runiX _ | endMark | illFC _ | illFD _ | illFE _ =>
    exact absurd trivial notOk

/-- The range check of a payload that is there is the one on its offset (R203). -/
theorem State.outOfRange_iff_produce {s : State} {i : Instr}
    (present : s.Present (s.pc + i.headerSize) i.payloadSize) :
    s.OutOfRange i ↔
      produce i (s.bytesAt (s.pc + i.headerSize) i.payloadSize) s = .error .backReferenceOutOfRange := by
  by_cases hb : i.backReference = true
  · obtain ⟨_, size⟩ := Instr.payload_of_backReference hb
    rw [size] at present ⊢
    rw [produce_eq_error_iff hb]
    simp [State.OutOfRange, State.offsetAt_eq_some_iff, present]
  · exact iff_of_false (fun bad => hb bad.backReference) fun rejected => hb (produce_error rejected).2

/-- Each outcome of `exec` carries the error of the first of the tests 4 to 7 that is met (R205). -/
theorem exec_commandRaises {i : Instr} {s t : State} (noErr : s.err = .none) (h : exec i s = .next t) :
    s.CommandRaises i t.err := by
  rw [State.commandRaises_iff]
  rcases exec_cases i s with ⟨rfl, hx⟩ | ⟨illegal, hx⟩ | ⟨data, tooMany, hx⟩ |
    ⟨data, fits, k, hk, ⟨_, missing⟩, hx⟩ | ⟨data, fits, present, rejected, hx⟩ |
    ⟨data, fits, present, v, produced, _, hx⟩ <;> rw [hx] at h <;> cases h
  · refine .inr (.inr (.inr (.inr ⟨by decide, ?_, ?_, ?_, noErr⟩)))
    · rintro ⟨data, _⟩
      cases data
    · rintro ⟨_, hk, _⟩
      cases hk
    · intro bad
      cases bad.backReference
  · exact .inl ⟨illegal, rfl⟩
  · exact .inr (.inl ⟨not_illegal_of_dataBearing data, tooMany, rfl⟩)
  · exact .inr (.inr (.inl ⟨not_illegal_of_dataBearing data, fits, ⟨k, hk, missing⟩, rfl⟩))
  · exact .inr (.inr (.inr (.inl ⟨not_illegal_of_dataBearing data, fits, State.not_payloadMissing_iff.mpr present,
      (State.outOfRange_iff_produce present).mpr rejected, rfl⟩)))
  · refine .inr (.inr (.inr (.inr ⟨not_illegal_of_dataBearing data, fits, State.not_payloadMissing_iff.mpr present,
      fun bad => ?_, noErr⟩)))
    rw [State.outOfRange_iff_produce present, produced] at bad
    cases bad

/-- The error of a step on a whole header is that of its command: the tests 1 to 3 are passed (R205). -/
theorem State.HeaderAt.commandRaises {s t : State} {i : Instr} (header : s.HeaderAt i) (hr : s.state = .reading)
    (noErr : s.err = .none) (h : step s = .next t) : s.CommandRaises i t.err := by
  rw [step_of_headerAt hr header] at h
  exact (exec_commandRaises (s := s.noteReads _) noErr h).of_noteReads

/-! ### The error of a step (R205 to R207) -/

theorem State.HeaderAt.stepRaises_iff {s : State} {i : Instr} (header : s.HeaderAt i) (e : ErrKind) :
    s.StepRaises e ↔ s.CommandRaises i e := by
  rcases header.cases with ⟨h0, hb, hc⟩ | ⟨h0, h1, hb, hb1, hc, rfl⟩
  · simp [State.StepRaises, hb, hc]
  · simp [State.StepRaises, hb, hb1, hc]

/-- From `Reading` with no error, a step sets `err` exactly where it fails (R206). -/
theorem step_err_iff_failed {s t : State} (hr : s.state = .reading) (noErr : s.err = .none) (h : step s = .next t) :
    t.err ≠ .none ↔ t.state = .failed := by
  rcases (step_result hr h).outcome with ⟨e, issued, he, rfl⟩ | ⟨_, rfl⟩ | ⟨_, _, _, _, rfl⟩
  · exact ⟨fun _ => rfl, fun _ => he⟩
  · simp [noErr]
  · simp [noErr, hr]

/-- Settles O27: without its first or second byte a header is truncated; with a whole header the error is that of the
command, each test reading the state as it was before the step. -/
theorem firstErrorIsRaised : Obligations.FirstErrorIsRaised := by
  refine fun s t hr noErr h => ⟨?_, step_err_iff_failed hr noErr h⟩
  rcases s.header_cases with hb | ⟨h0, hb, hc, hb1⟩ | ⟨i, header⟩
  · cases (step_firstByteMissing hr hb).symm.trans h
    simp [State.StepRaises, hb]
  · cases (step_secondByteMissing hr hb hc hb1).symm.trans h
    simp [State.StepRaises, hb, hb1, hc]
  · exact (header.stepRaises_iff _).mpr (header.commandRaises hr noErr h)

/-- Settles O26: the only outcome of a step in `Failed` is failure entry, which writes those four registers alone. -/
theorem failureIsPrecise : Obligations.FailureIsPrecise := by
  intro s t _ h failed
  obtain ⟨e, issued, he, rfl⟩ := step_to_failed h failed
  exact ⟨issued, rfl, he, rfl, rfl, fun _ => rfl⟩

/-! ### UnknownCommand (R201) -/

/-- The first bytes of the illegal rows are those of an extended header with code 7 (R90, R201). -/
theorem illegal_of_firstByte {h0 : Byte} (lo : 0xFC ≤ h0.toNat) (hi : h0.toNat ≤ 0xFE) :
    classifyFirst h0 = .extended ∧ ∀ h1, (decodeExtended h0 h1).illegal = true := by
  have bytes : h0 = 0xFC#8 ∨ h0 = 0xFD#8 ∨ h0 = 0xFE#8 := by
    revert h0
    decide
  rcases bytes with rfl | rfl | rfl <;> exact ⟨rfl, fun _ => rfl⟩

theorem State.HeaderAt.firstByte_of_illegal {s : State} {i : Instr} (header : s.HeaderAt i) (illegal : i.illegal) :
    ∃ h0 : Byte, s.srcByte s.pc = some h0 ∧ 0xFC ≤ h0.toNat ∧ h0.toNat ≤ 0xFE := by
  rcases header.cases with ⟨h0, _, hc⟩ | ⟨h0, h1, hb, _, hc, rfl⟩
  · have size := classifyFirst_headerSize hc
    cases i <;> cases illegal <;> cases size
  · exact ⟨h0, hb, (illegal_encode_iff h0 h1).mp ⟨_, illegal, (decodeExtended_spec hc h1).2.1⟩⟩

/-- Settles O16: the three first bytes are those of the illegal headers, whose meaning is failure entry in every state;
of the ways to fetch a header and of the tests behind it only the test for an illegal one raises this error. -/
theorem unknownCommandRaised : Obligations.UnknownCommandRaised := by
  refine ⟨fun s h1 => ⟨exec_illegal rfl s, exec_illegal rfl s, exec_illegal rfl s⟩, fun s h0 hr hb lo hi => ?_,
    fun s t hr noErr h raised => ?_⟩
  · obtain ⟨hc, illegal⟩ := illegal_of_firstByte lo hi
    refine ⟨fun h1 hb1 => ?_, step_secondByteMissing hr hb hc⟩
    rw [step_of_headerAt hr (.of_extended hb hc hb1), decodeExtended_headerSize hc, exec_illegal (illegal h1)]
    exact congrArg _ (State.noteReads_failedAfter ..)
  · rcases s.header_cases with hb | ⟨h0, hb, hc, hb1⟩ | ⟨i, header⟩
    · cases (step_firstByteMissing hr hb).symm.trans h
      cases raised
    · cases (step_secondByteMissing hr hb hc hb1).symm.trans h
      cases raised
    · exact header.firstByte_of_illegal ((header.commandRaises hr noErr h).unknownCommand_iff.mp raised)

/-! ### OutputOverflow (R202) -/

/-- Settles O17: of the tests behind the header only the ceiling check raises this error, before any payload
transaction; with no error the step has appended the command's bytes. -/
theorem outputCeiling : Obligations.OutputCeiling := by
  intro s t i length n hr noErr header command h
  obtain ⟨data, rfl⟩ : i.dataBearing = true ∧ i.appendCount = n := by
    rcases command with ⟨rfl | rfl, rfl⟩ | ⟨member, rfl⟩
    · exact ⟨rfl, rfl⟩
    · exact ⟨rfl, rfl⟩
    · simp only [List.mem_cons, List.not_mem_nil, or_false] at member
      rcases member with rfl | rfl | rfl | rfl | rfl | rfl | rfl | rfl | rfl | rfl | rfl | rfl <;> exact ⟨rfl, rfl⟩
  have overflow_iff := (header.commandRaises hr noErr h).outputOverflow_iff
  refine ⟨overflow_iff.trans (and_iff_right data), fun raised => ?_, fun completed => ?_⟩
  · rw [step_of_headerAt hr header] at h
    cases (exec_overflowing (s := s.noteReads _) data (overflow_iff.mp raised)).symm.trans h
    simp
  · have notFailed := (step_err_iff_failed hr noErr h).not_right.mp completed
    exact ((outputIsAppendOnly s t i hr header h).1 notFailed).2

/-! ### TruncatedInput (R204) -/

/-- Settles O23: a missing header byte ends the step in this error, and behind a whole header only the payload read,
made once the tests before it are passed, raises it. -/
theorem truncatedInputRaised : Obligations.TruncatedInputRaised := by
  refine ⟨fun s t hr noErr h => ⟨fun raised => ?_, ?_⟩, fun s a => s.srcByte_beyond⟩
  · rcases s.header_cases with hb | ⟨h0, hb, hc, hb1⟩ | ⟨i, header⟩
    · exact .inl hb
    · obtain ⟨escape, notEnd⟩ := (classifyFirst_extended_iff_mask h0).mp hc
      exact .inr (.inl ⟨h0, hb, escape, notEnd, hb1⟩)
    · obtain ⟨legal, fits, missing⟩ := (header.commandRaises hr noErr h).truncatedInput_iff.mp raised
      exact .inr (.inr ⟨i, header, eq_false_of_ne_true legal, fits, missing⟩)
  · rintro (hb | ⟨h0, hb, escape, notEnd, hb1⟩ | ⟨i, header, legal, fits, missing⟩)
    · cases (step_firstByteMissing hr hb).symm.trans h
      rfl
    · have hc := (classifyFirst_extended_iff_mask h0).mpr ⟨escape, notEnd⟩
      cases (step_secondByteMissing hr hb hc hb1).symm.trans h
      rfl
    · exact (header.commandRaises hr noErr h).truncated (by simp [legal]) fits missing

end Sys2Proof.Machine

/-! ## Reset (spec/70_reset_and_hazards.md) -/

namespace Sys2Proof.Machine

/-- Reset is accepted in every state, with every value of `pc` that fits in AW bits (R230). -/
theorem hostReset_accepted {pc : Nat} {s : State} (fits : pc < 2 ^ s.aw) :
    hostReset pc s = .next { State.resetWith s.aw s.src s.srcCursor pc with reads := s.reads } :=
  if_neg (Nat.not_le_of_lt fits)

/-- `STATUS` reads 0 in `Idle` with no error: both its fields are code 0 (R31). -/
theorem State.statusReg_toNat_of_idle {s : State} (idle : s.state = .idle) (noErr : s.err = .none) :
    s.statusReg.toNat = 0 := by
  obtain ⟨_, _, fields⟩ := s.statusReg_fields
  rw [fields, idle, noErr]
  rfl

theorem State.outLenReg_toNat_of_empty {s : State} (empty : s.out = []) : s.outLenReg.toNat = 0 := by
  rw [State.outLenReg, State.outLen, empty]
  rfl

/-- Settles O51: an accepted reset is `resetWith` with the old record of transactions, a state that is `Idle` with no
error and an empty buffer; the status and length registers and the refusing read port follow from that. -/
theorem resetEvent : Obligations.ResetEvent := by
  refine fun pc' s fits => ⟨hostReset_accepted fits, fun t h => ?_⟩
  obtain ⟨_, rfl⟩ := hostReset_next h
  exact ⟨congrArg some (State.statusReg_toNat_of_idle rfl rfl), congrArg some (State.outLenReg_toNat_of_empty rfl),
    State.outRd_not_done (by simp)⟩

end Sys2Proof.Machine
